-- ==== Sys2Proof/Word.lean ====
section
/-! DEFINITION. The word and the byte of the block (00_scope.md R5, R11, R12). -/

namespace Sys2Proof

/-- A host-visible register, and a command word: 32 bits (R5). -/
abbrev Word := BitVec 32

/-- One byte of a byte sequence (R12). -/
abbrev Byte := BitVec 8

end Sys2Proof
end

