-- ==== Sys2Proof/Syntax.lean ====
section
/-! DEFINITION. The commands of the block: one constructor for each row of spec/opcode_table.json
(30_encoding.md R65, R67). A command carries exactly the fields R67's `decode` gives it; the fields it
ignores (R66) stand in no constructor. -/

namespace Sys2Proof

/-- The hash algorithms: "exactly SHA1, SHA256 and SHA512" (R1, R63). -/
inductive Alg where
  | sha1
  | sha256
  | sha512
  deriving DecidableEq, Repr

/-- The 2-bit ALG tag (R63): `none` is the tag 3, which R63's table calls "none". -/
abbrev AlgTag := Option Alg

/-- The commands (R65). `digits` is the DIGITS field read as an unsigned number (R64). -/
inductive Instr where
  | nop
  | enc
  | mac   (alg : AlgTag)
  | trunc (alg : AlgTag) (digits : Nat)
  | fmt   (digits : Nat)
  | hotp  (alg : AlgTag) (digits : Nat)
  | tstep
  | totp  (alg : AlgTag) (digits : Nat)
  deriving DecidableEq, Repr

end Sys2Proof
end

