-- ==== Sys2Proof/WellFormed.lean ====
section
/-! DEFINITION. Which terms of `Instr` stand for a command word (30_encoding.md R64): a DIGITS operand is
"0 to 15". The values 0 and 11 to 15 are well formed: they encode, and the command then fails at run time
with InvalidDigits. -/

namespace Sys2Proof

/-- R64: DIGITS is a 4-bit field, 0 to 15. -/
def digitsEncodable (d : Nat) : Bool := decide (d < 16)

/-- The command can be written as a word. -/
def Instr.wf : Instr → Bool
  | .nop       => true
  | .enc       => true
  | .mac _     => true
  | .trunc _ d => digitsEncodable d
  | .fmt d     => digitsEncodable d
  | .hotp _ d  => digitsEncodable d
  | .tstep     => true
  | .totp _ d  => digitsEncodable d

end Sys2Proof
end

