-- ==== Sys2Proof/Decode.lean ====
section
/-! DEFINITION. From a command word to a command and back (30_encoding.md R61 to R68, R70). -/

namespace Sys2Proof

/-! ## The fields of a word (R62) -/

/-- OP, bits 3:0. -/
def opField (w : Word) : BitVec 4 := w.extractLsb' 0 4
/-- ALG, bits 5:4. -/
def algField (w : Word) : BitVec 2 := w.extractLsb' 4 2
/-- RES0, bits 7:6. -/
def res0Field (w : Word) : BitVec 2 := w.extractLsb' 6 2
/-- DIGITS, bits 11:8. -/
def digitsField (w : Word) : BitVec 4 := w.extractLsb' 8 4
/-- RES1, bits 31:12. -/
def res1Field (w : Word) : BitVec 20 := w.extractLsb' 12 20

/-- The word with the given fields, most significant first (R62). -/
def wordOfFields (res1 : BitVec 20) (digits : BitVec 4) (res0 alg : BitVec 2) (op : BitVec 4) : Word :=
  res1 ++ digits ++ res0 ++ alg ++ op

/-- The algorithm a tag names (R63): 0 SHA1, 1 SHA256, 2 SHA512, 3 none. -/
def algOfTag (t : BitVec 2) : AlgTag :=
  if t = 0 then some .sha1 else if t = 1 then some .sha256 else if t = 2 then some .sha512 else none

/-- The tag of an algorithm (R63), 3 for none. -/
def tagOfAlg : AlgTag → BitVec 2
  | some .sha1   => 0
  | some .sha256 => 1
  | some .sha512 => 2
  | none         => 3

/-! ## Decoding (R67) -/

/-- Why a word is ILLEGAL (R68). -/
inductive IllegalWord where
  /-- RES0 or RES1 is not 0. -/
  | reservedField
  /-- OP is in 0x8 to 0xF. -/
  | reservedOp
  deriving DecidableEq, Repr

/-- The case table of R67: the command that OP selects. -/
def decodeOp (op : BitVec 4) (alg : BitVec 2) (digits : BitVec 4) : Except IllegalWord Instr :=
  match op.toNat with
  | 0 => .ok .nop
  | 1 => .ok .enc
  | 2 => .ok (.mac (algOfTag alg))
  | 3 => .ok (.trunc (algOfTag alg) digits.toNat)
  | 4 => .ok (.fmt digits.toNat)
  | 5 => .ok (.hotp (algOfTag alg) digits.toNat)
  | 6 => .ok .tstep
  | 7 => .ok (.totp (algOfTag alg) digits.toNat)
  | _ => .error .reservedOp

/-- R67's `decode`, total on all words; an error is R67's ILLEGAL. -/
def decode (w : Word) : Except IllegalWord Instr :=
  if res0Field w ≠ 0 ∨ res1Field w ≠ 0 then .error .reservedField
  else decodeOp (opField w) (algField w) (digitsField w)

/-! ## Encoding (R62, R65, R70) -/

/-- The OP number of a command (R65). -/
def opOf : Instr → BitVec 4
  | .nop       => 0
  | .enc       => 1
  | .mac _     => 2
  | .trunc _ _ => 3
  | .fmt _     => 4
  | .hotp _ _  => 5
  | .tstep     => 6
  | .totp _ _  => 7

/-- The word of a command in which the fields it ignores (R66) hold the given values. -/
def encodeWith (ignoredAlg : BitVec 2) (ignoredDigits : BitVec 4) (i : Instr) : Word :=
  match i with
  | .nop       => wordOfFields 0 ignoredDigits 0 ignoredAlg (opOf i)
  | .enc       => wordOfFields 0 ignoredDigits 0 ignoredAlg (opOf i)
  | .mac a     => wordOfFields 0 ignoredDigits 0 (tagOfAlg a) (opOf i)
  | .trunc a d => wordOfFields 0 (BitVec.ofNat 4 d) 0 (tagOfAlg a) (opOf i)
  | .fmt d     => wordOfFields 0 (BitVec.ofNat 4 d) 0 ignoredAlg (opOf i)
  | .hotp a d  => wordOfFields 0 (BitVec.ofNat 4 d) 0 (tagOfAlg a) (opOf i)
  | .tstep     => wordOfFields 0 ignoredDigits 0 ignoredAlg (opOf i)
  | .totp a d  => wordOfFields 0 (BitVec.ofNat 4 d) 0 (tagOfAlg a) (opOf i)

/-- The word an assembler writes (R70): ignored fields are 0. -/
def encode (i : Instr) : Word := encodeWith 0 0 i

/-- The word whose low `nbits` bits are `w` and whose other bits are 0. -/
def tableWord (nbits w : Nat) : Word := BitVec.ofNat 32 (w % 2 ^ nbits)

/-- The command the decoder reads from an opcode-table word of `nbits` bits. A command is one 32-bit
word (R61), so a longer one is none. -/
def decodeTableWord (nbits w : Nat) : Option Instr :=
  if nbits ≤ 32 then (decode (tableWord nbits w)).toOption else none

end Sys2Proof
end

