-- ==== Sys2Proof/Config.lean ====
section
/-! DEFINITION. The implementation parameters of the block (00_scope.md section 3). -/

namespace Sys2Proof

/-- The parameters that one implementation or platform fixes. No step writes them.
`keyMaxBytes` is KEY_MAX_BYTES (R7), `otpeBase` is OTPE_BASE (R8). -/
structure Config where
  keyMaxBytes : Nat
  otpeBase    : Nat
  deriving DecidableEq, Repr

/-- R7: KEY_MAX_BYTES is a multiple of 4 with 64 ≤ KEY_MAX_BYTES ≤ 256. -/
abbrev Config.wf (c : Config) : Prop :=
  c.keyMaxBytes % 4 = 0 ∧ 64 ≤ c.keyMaxBytes ∧ c.keyMaxBytes ≤ 256

/-- R7's reference KEY_MAX_BYTES. The base is the platform's (R8); 0 is a DESIGN CHOICE (log entry 1). -/
def Config.reference : Config := { keyMaxBytes := 256, otpeBase := 0 }

/-- DIGITS_MAX (R6). -/
def digitsMax : Nat := 10

end Sys2Proof
end

