-- ==== Sys2Proof/Machine/State.lean ====
section
/-! DEFINITION. The state of the OTPE (10_state.md), as plain data, and its value after reset
(70_reset_and_hazards.md R119). -/

namespace Sys2Proof.Machine

/-! ## Byte buffers -/

/-- A byte buffer of the block (KEY, DIG, OUTC and the copies in the snapshot): (index, byte) pairs.
The block has no other memory (20_memory.md R46). -/
abbrev Memory := List Host.Cell

/-- What an index that is not listed reads as: the reset contents of every buffer (R119). -/
def Memory.unlisted : Byte := 0

/-- The canonical form: indices strictly rise, and no entry holds what an unlisted index reads as. -/
abbrev Memory.wf (m : Memory) : Prop :=
  m.Pairwise (fun a b => a.1 < b.1) ∧ ∀ c ∈ m, c.2 ≠ Memory.unlisted

/-! ## Names -/

/-- The engine phase (R19). -/
inductive Phase where
  | idle
  | busy
  deriving DecidableEq, Repr

/-- The error codes of 60_exceptions.md R104. R104 reserves 7 to 15: "never produced". -/
inductive ErrCode where
  | none
  | invalidDigits
  | invalidPeriod
  | invalidCounter
  | unsupportedAlgorithm
  | invalidKeyLength
  | illegalCommand
  deriving DecidableEq, Repr

/-- A set of failed checks (40_command_execution.md R76), and the EF_* fields of STATUS (R27). -/
structure ErrFlags where
  digits  : Bool := false
  period  : Bool := false
  counter : Bool := false
  alg     : Bool := false
  keylen  : Bool := false
  cmd     : Bool := false
  deriving DecidableEq, Repr

/-- The registers of the map in R22. OUTj, DIGESTj and KEYj carry their index. -/
inductive Reg where
  | id | cap | ctrl | status | cmd
  | keylen | period | value | ctrHi | ctrLo | tsHi | tsLo
  | msgHi | msgLo | tstepHi | tstepLo | offset | binary | code | outlen
  | out (j : Fin 3)
  | maccnt
  | digest (j : Fin 16)
  | key (j : Fin 64)
  deriving DecidableEq, Repr

/-- What reaches the block from outside, one at a time (R18, R47, R119). Addresses are bus addresses
(20_memory.md R46); `size` is the width of an access, or of one beat of a burst, in bytes. -/
inductive BusEvent where
  /-- A read access. -/
  | read (addr size : Nat)
  /-- A write access of the word `v` (a width other than 4 is not admitted, so it needs no other data). -/
  | write (addr size : Nat) (v : Word)
  /-- A read burst of `beats` beats from `addr` on (R51: one access, never split and never merged). -/
  | readBurst (addr size beats : Nat)
  /-- A write burst of the words `vs` from `addr` on (R51). -/
  | writeBurst (addr size : Nat) (vs : List Word)
  /-- The pseudo-instruction `wait` (30_encoding.md R72): STATUS is read until DONE = 1. -/
  | poll
  /-- The reset input is asserted (R119). -/
  | reset
  deriving DecidableEq, Repr

/-- The snapshot S (R20). -/
structure Snapshot where
  cmd    : Word
  keylen : BitVec 9
  key    : Memory
  period : Word
  value  : BitVec 31
  ctr    : BitVec 64
  ts     : BitVec 64
  dig    : Memory
  deriving DecidableEq, Repr

/-- What stands in the place of S while no command is in flight. R20: "meaningless while PHASE = IDLE";
R119: "the snapshot S is discarded". All zero is a DESIGN CHOICE (log entry 6). -/
def Snapshot.discarded : Snapshot :=
  { cmd := 0, keylen := 0, key := [], period := 0, value := 0, ctr := 0, ts := 0, dig := [] }

/-- The state. The registers stand in the order of R22's map; ID and CAP are constants (R24, R25) and
STATUS.BUSY is a view of `phase` (R27). -/
structure State where
  /-- The parameters of the implementation (R7, R8); no step writes them. -/
  cfg     : Config
  /-- PHASE (R19). -/
  phase   : Phase
  /-- The snapshot S (R20). -/
  snap    : Snapshot
  /-- CTRL.IE (R26). -/
  ie      : Bool
  /-- STATUS.DONE (R27). -/
  done    : Bool
  /-- STATUS.OVR (R27). -/
  ovr     : Bool
  /-- STATUS.ERRCODE (R27). -/
  errcode : ErrCode
  /-- STATUS.EF_* (R27). -/
  ef      : ErrFlags
  /-- CMD (R28). -/
  cmd     : Word
  /-- KEYLEN.LEN (R29). -/
  keylen  : BitVec 9
  /-- PERIOD (R30). -/
  period  : Word
  /-- VALUE.VAL (R31). -/
  value   : BitVec 31
  /-- CTR_HI and CTR_LO (R32). -/
  ctrHi   : Word
  ctrLo   : Word
  /-- TS_HI and TS_LO (R33). -/
  tsHi    : Word
  tsLo    : Word
  /-- MSG_HI and MSG_LO (R34). -/
  msgHi   : Word
  msgLo   : Word
  /-- TSTEP_HI and TSTEP_LO (R35). -/
  tstepHi : Word
  tstepLo : Word
  /-- OFFSET (R36). -/
  offset  : BitVec 4
  /-- BINARY (R37). -/
  binary  : BitVec 31
  /-- CODE (R38). -/
  code    : BitVec 31
  /-- OUTLEN (R39). -/
  outlen  : BitVec 4
  /-- OUTC, the 12 character bytes of OUT0 to OUT2 (R40). -/
  outc    : Memory
  /-- MACCNT (R41). -/
  maccnt  : Word
  /-- DIG, the 64 bytes of DIGEST0 to DIGEST15 (R42). -/
  dig     : Memory
  /-- KEY, the KEY_MAX_BYTES bytes of KEY0, KEY1, ... (R43). -/
  key     : Memory
  /-- The model's own: the bus events still to come, oldest first (log entry 3). -/
  pending : List BusEvent
  /-- The model's own: the data the host's reads returned, newest first (log entry 5). -/
  reads   : List Word
  /-- The model's own: host accesses that come before the in-flight command completes (R10, log entry 2). -/
  delay   : Nat
  /-- The model's own: the LATENCY of each command accepted later, in order (R10, log entry 2). -/
  latencies : List Nat
  deriving DecidableEq, Repr

/-- Why a host step stops. -/
inductive Fault where
  /-- R107's BusError(off): a width other than 32 bits, a burst (R51), a misaligned offset or an unmapped
  offset of the window. Raised by the bus step only. Safe: R107 says "A model treats such an access as a fault of the
  host step", and no state changes. -/
  | busError (off : Nat)
  /-- An access outside [OTPE_BASE, OTPE_BASE + 0x200), which the block does not decode (R54, I5: fault).
  Raised by the bus step only. Safe: the model stops where the platform answers. -/
  | outsideWindow (addr : Nat)
  deriving DecidableEq, Repr

/-- Why a step has no meaning. -/
inductive Refusal where
  /-- An arm of `exec` that has no meaning yet. Safe. No arm raises it: every command is modelled. -/
  | notModelled (mnemonic : String)
  deriving DecidableEq, Repr

/-- The state right after reset (R119), of the reference implementation (R7). -/
def State.reset : State :=
  { cfg := Config.reference
    phase := .idle, snap := Snapshot.discarded
    ie := false, done := false, ovr := false, errcode := .none, ef := {}
    cmd := 0, keylen := 0, period := 30, value := 0
    ctrHi := 0, ctrLo := 0, tsHi := 0, tsLo := 0
    msgHi := 0, msgLo := 0, tstepHi := 0, tstepLo := 0
    offset := 0, binary := 0, code := 0, outlen := 0, outc := [], maccnt := 0
    dig := [], key := []
    pending := [], reads := [], delay := 0, latencies := [] }

end Sys2Proof.Machine
end

