-- ==== Sys2Proof/Machine/Flags.lean ====
section
/-! DEFINITION. The flags: the STATUS word, the error codes, the checks of the Parameter Validator and the
interrupt (10_state.md R27, R45; 40_command_execution.md R76, R77; 60_exceptions.md R104 to R112). -/

namespace Sys2Proof.Machine

/-- The ERRCODE number (R104). -/
def ErrCode.num : ErrCode → BitVec 4
  | .none                 => 0
  | .invalidDigits        => 1
  | .invalidPeriod        => 2
  | .invalidCounter       => 3
  | .unsupportedAlgorithm => 4
  | .invalidKeyLength     => 5
  | .illegalCommand       => 6

/-- STATUS.BUSY reads PHASE (R19, R27). -/
def Phase.isBusy : Phase → Bool
  | .idle => false
  | .busy => true

/-- The STATUS word (R27), most significant field first. -/
def statusWord (s : State) : Word :=
  0#18 ++ BitVec.ofBool s.ef.cmd ++ BitVec.ofBool s.ef.keylen ++ BitVec.ofBool s.ef.alg
    ++ BitVec.ofBool s.ef.counter ++ BitVec.ofBool s.ef.period ++ BitVec.ofBool s.ef.digits
    ++ s.errcode.num ++ 0#1 ++ BitVec.ofBool s.ovr ++ BitVec.ofBool s.done ++ BitVec.ofBool s.phase.isBusy

/-- The interrupt output, a level (R112). -/
def irq (s : State) : Bool := s.ie && s.done

/-! ## Which fields a command uses (30_encoding.md R65) -/

/-- The ALG operand of a command that uses ALG. -/
def algUsed : Instr → Option AlgTag
  | .nop       => none
  | .enc       => none
  | .mac a     => some a
  | .trunc a _ => some a
  | .fmt _     => none
  | .hotp a _  => some a
  | .tstep     => none
  | .totp a _  => some a

/-- The DIGITS operand of a command that uses DIGITS. -/
def digitsUsed : Instr → Option Nat
  | .nop       => none
  | .enc       => none
  | .mac _     => none
  | .trunc _ d => some d
  | .fmt d     => some d
  | .hotp _ d  => some d
  | .tstep     => none
  | .totp _ d  => some d

/-- The command uses the key (a key-consuming command, R17). -/
def usesKey : Instr → Bool
  | .nop       => false
  | .enc       => false
  | .mac _     => true
  | .trunc _ _ => false
  | .fmt _     => false
  | .hotp _ _  => true
  | .tstep     => false
  | .totp _ _  => true

/-- The PERIOD check applies to the command (R76: TSTEP and TOTP). -/
def usesPeriod : Instr → Bool
  | .nop       => false
  | .enc       => false
  | .mac _     => false
  | .trunc _ _ => false
  | .fmt _     => false
  | .hotp _ _  => false
  | .tstep     => true
  | .totp _ _  => true

/-! ## The checks (R76) and the error code (R77, R108) -/

/-- The DIGITS check fails: not 1 ≤ d ≤ 10. -/
def digitsFail (d : Nat) : Bool := !(decide (1 ≤ d) && decide (d ≤ digitsMax))

/-- The COUNTER check "never" fails (R76, R106): a 64-bit counter is never out of range. -/
def counterFail (_c : BitVec 64) : Bool := false

/-- The set F of the failing checks of a command (R76, R77). `k` is KEY_MAX_BYTES. -/
def checks (i : Instr) (k : Nat) (S : Snapshot) : ErrFlags :=
  { digits  := (digitsUsed i).any digitsFail
    period  := usesPeriod i && decide (S.period = 0)
    counter := counterFail S.ctr
    alg     := (algUsed i).any Option.isNone
    keylen  := usesKey i && decide (k < S.keylen.toNat)
    cmd     := false }

/-- The failing checks of an ILLEGAL word: CMD alone (R77: "no other check is evaluated"). -/
def illegalChecks : ErrFlags := { cmd := true }

/-- ERRCODE for a set of failing checks: the first failing one in R108's order. -/
def errCodeOf (F : ErrFlags) : ErrCode :=
  if F.cmd then .illegalCommand
  else if F.digits then .invalidDigits
  else if F.period then .invalidPeriod
  else if F.counter then .invalidCounter
  else if F.alg then .unsupportedAlgorithm
  else if F.keylen then .invalidKeyLength
  else .none

end Sys2Proof.Machine
end

