-- ==== Sys2Proof/Machine/Ops.lean ====
section
/-! DEFINITION. The named operations: byte buffers and their packing (20_memory.md R49), the registers
(10_state.md R22 to R43), host accesses (R47), acceptance (40_command_execution.md R73 to R75), completion
with and without error (R79, 60_exceptions.md R109), the wipe (R80) and reset (R119). -/

namespace Sys2Proof.Machine

/-! ## Byte sequences (00_scope.md R12) -/

/-- `zeros(n)`. -/
def zeros (n : Nat) : List Byte := List.replicate n 0

/-- `rep(b, n)`. -/
def rep (b : Byte) (n : Nat) : List Byte := List.replicate n b

/-- `s xor t`, bytewise. -/
def xorBytes (s t : List Byte) : List Byte := List.zipWith (fun a b => a ^^^ b) s t

/-- `s[i]`. An index at or beyond `len(s)` is used by no rule. -/
def byteAt (s : List Byte) (i : Nat) : Byte := s.getD i 0

/-- The `k` bytes of `n`, most significant first. -/
def bytesBe (k n : Nat) : List Byte := (List.range k).map fun i => BitVec.ofNat 8 (n >>> (8 * (k - 1 - i)))

/-- The number a byte sequence denotes, most significant byte first. -/
def bytesVal (s : List Byte) : Nat := s.foldl (fun n b => n * 256 + b.toNat) 0

/-! ## Byte buffers -/

/-- Byte `i` of a buffer. -/
def Memory.read (m : Memory) (i : Nat) : Byte :=
  match m with
  | [] => Memory.unlisted
  | (a, b) :: rest => if a = i then b else Memory.read rest i

/-- The buffer with byte `i` set to `v`, in canonical form. -/
def Memory.write (m : Memory) (i : Nat) (v : Byte) : Memory :=
  match m with
  | [] => if v = Memory.unlisted then [] else [(i, v)]
  | (a, b) :: rest =>
    if i < a then (if v = Memory.unlisted then (a, b) :: rest else (i, v) :: (a, b) :: rest)
    else if i = a then (if v = Memory.unlisted then rest else (i, v) :: rest)
    else (a, b) :: Memory.write rest i v

/-- The buffer with the bytes `bs` written from index `i` on. -/
def Memory.writeBytes (m : Memory) (i : Nat) (bs : List Byte) : Memory :=
  match bs with
  | [] => m
  | b :: rest => Memory.writeBytes (Memory.write m i b) (i + 1) rest

/-- Every byte 0x00. -/
def Memory.cleared : Memory := []

/-- The buffer that holds `bs` from index 0 on, and 0x00 beyond. -/
def Memory.ofBytes (bs : List Byte) : Memory := Memory.writeBytes Memory.cleared 0 bs

/-- The bytes `m[0..n)`. -/
def Memory.firstBytes (m : Memory) (n : Nat) : List Byte := (List.range n).map fun i => Memory.read m i

/-! ## Packing (R49) -/

/-- `pack_be(s, j)`: bytes 4j to 4j+3, byte 4j in bits 31:24. -/
def packBe (s : Nat → Byte) (j : Nat) : Word :=
  s (4 * j) ++ s (4 * j + 1) ++ s (4 * j + 2) ++ s (4 * j + 3)

/-- `unpack_be(v)`. -/
def unpackBe (v : Word) : List Byte :=
  [v.extractLsb' 24 8, v.extractLsb' 16 8, v.extractLsb' 8 8, v.extractLsb' 0 8]

/-- Word `j` of a buffer, as a host reads it. -/
def Memory.word (m : Memory) (j : Nat) : Word := packBe (Memory.read m) j

/-- A host write of `v` to word `j` of a buffer. -/
def Memory.setWord (m : Memory) (j : Nat) (v : Word) : Memory := Memory.writeBytes m (4 * j) (unpackBe v)

/-! ## The register map (R22) -/

/-- `off(NAME)`: the window offset of a register. -/
def Reg.off : Reg → Nat
  | .id => 0x000 | .cap => 0x004 | .ctrl => 0x008 | .status => 0x00C | .cmd => 0x010
  | .keylen => 0x014 | .period => 0x018 | .value => 0x01C
  | .ctrHi => 0x020 | .ctrLo => 0x024 | .tsHi => 0x028 | .tsLo => 0x02C
  | .msgHi => 0x030 | .msgLo => 0x034 | .tstepHi => 0x038 | .tstepLo => 0x03C
  | .offset => 0x040 | .binary => 0x044 | .code => 0x048 | .outlen => 0x04C
  | .out j => 0x050 + 4 * j.val
  | .maccnt => 0x05C
  | .digest j => 0x080 + 4 * j.val
  | .key j => 0x100 + 4 * j.val

/-- The register in word `n` of the window, where KEY_MAX_BYTES is `k`; none in the holes 0x060-0x07C and
0x0C0-0x0FC, in the unmapped tail of the KEY window and from 0x200 on (R22, R54). -/
def regOfIndex (k n : Nat) : Option Reg :=
  match n with
  | 0 => some .id | 1 => some .cap | 2 => some .ctrl | 3 => some .status | 4 => some .cmd
  | 5 => some .keylen | 6 => some .period | 7 => some .value
  | 8 => some .ctrHi | 9 => some .ctrLo | 10 => some .tsHi | 11 => some .tsLo
  | 12 => some .msgHi | 13 => some .msgLo | 14 => some .tstepHi | 15 => some .tstepLo
  | 16 => some .offset | 17 => some .binary | 18 => some .code | 19 => some .outlen
  | 20 => some (.out 0) | 21 => some (.out 1) | 22 => some (.out 2)
  | 23 => some .maccnt
  | n =>
    if 0x20 ≤ n ∧ n < 0x30 then some (.digest (Fin.ofNat 16 (n - 0x20)))
    else if 0x40 ≤ n ∧ n < 0x80 ∧ 4 * (n - 0x40) < k then some (.key (Fin.ofNat 64 (n - 0x40)))
    else none

/-- The register at a window offset; none where R47 raises BusError whatever the width. -/
def regAt (k off : Nat) : Option Reg :=
  if off % 4 = 0 ∧ off < 0x200 then regOfIndex k (off / 4) else none

/-! ## Acceptance (R73, R74, R75) -/

/-- The operand pair CTR = CTR_HI ++ CTR_LO (R32). -/
def ctrOf (s : State) : BitVec 64 := s.ctrHi ++ s.ctrLo

/-- The operand pair TS = TS_HI ++ TS_LO (R33). -/
def tsOf (s : State) : BitVec 64 := s.tsHi ++ s.tsLo

/-- `snapshot()` for the command word `w` (R74). -/
def snapshot (w : Word) (s : State) : Snapshot :=
  { cmd := w, keylen := s.keylen, key := s.key, period := s.period, value := s.value
    ctr := ctrOf s, ts := tsOf s, dig := s.dig }

/-- `accept(w)` (R73). -/
def accept (w : Word) (s : State) : State :=
  { s with cmd := w, snap := snapshot w s, done := false, errcode := .none, ef := {}, phase := .busy }

/-- A CMD write while BUSY is dropped, and OVR is set (R75). -/
def dropCommand (s : State) : State := { s with ovr := true }

/-- The schedule of the command just accepted: its LATENCY is the next one of the list, 0 where the list
has ended (R10, log entry 2). -/
def startDelay (s : State) : State := { s with delay := s.latencies.headD 0, latencies := s.latencies.tail }

/-- A host write of `w` to CMD (R28). -/
def issue (w : Word) (s : State) : State :=
  match s.phase with
  | .idle => startDelay (accept w s)
  | .busy => dropCommand s

/-! ## Register reads and writes (R23 to R43) -/

/-- ID (R24): the bytes "OTP" and the interface version 1. -/
def idWord : Word := 0x4F545001

/-- CAP (R25): KEY_MAX_BYTES in 8:0, DIGITS_MAX in 15:12, the three algorithms in 18:16. -/
def capWord (k : Nat) : Word :=
  0#13 ++ 1#1 ++ 1#1 ++ 1#1 ++ BitVec.ofNat 4 digitsMax ++ 0#3 ++ BitVec.ofNat 9 k

/-- The word a host read of a register returns (R23 to R43). Reserved bits read as 0, and so does KEYj. -/
def readReg (s : State) : Reg → Word
  | .id => idWord
  | .cap => capWord s.cfg.keyMaxBytes
  | .ctrl => (BitVec.ofBool s.ie).setWidth 32
  | .status => statusWord s
  | .cmd => s.cmd
  | .keylen => s.keylen.setWidth 32
  | .period => s.period
  | .value => s.value.setWidth 32
  | .ctrHi => s.ctrHi
  | .ctrLo => s.ctrLo
  | .tsHi => s.tsHi
  | .tsLo => s.tsLo
  | .msgHi => s.msgHi
  | .msgLo => s.msgLo
  | .tstepHi => s.tstepHi
  | .tstepLo => s.tstepLo
  | .offset => s.offset.setWidth 32
  | .binary => s.binary.setWidth 32
  | .code => s.code.setWidth 32
  | .outlen => s.outlen.setWidth 32
  | .out j => s.outc.word j.val
  | .maccnt => s.maccnt
  | .digest j => s.dig.word j.val
  | .key _ => 0

/-- A host write of `v` to STATUS: DONE and OVR are cleared by writing 1 (R27). -/
def writeStatus (v : Word) (s : State) : State :=
  { s with done := s.done && !v.getLsbD 1, ovr := s.ovr && !v.getLsbD 2 }

/-- The effect of a host write of `v` to a register (R23 to R43). A write to an RO register has none, and
reserved bits are discarded. -/
def writeReg (s : State) (r : Reg) (v : Word) : State :=
  match r with
  | .id => s
  | .cap => s
  | .ctrl => { s with ie := v.getLsbD 0 }
  | .status => writeStatus v s
  | .cmd => issue v s
  | .keylen => { s with keylen := v.extractLsb' 0 9 }
  | .period => { s with period := v }
  | .value => { s with value := v.extractLsb' 0 31 }
  | .ctrHi => { s with ctrHi := v }
  | .ctrLo => { s with ctrLo := v }
  | .tsHi => { s with tsHi := v }
  | .tsLo => { s with tsLo := v }
  | .msgHi => s
  | .msgLo => s
  | .tstepHi => s
  | .tstepLo => s
  | .offset => s
  | .binary => s
  | .code => s
  | .outlen => s
  | .out _ => s
  | .maccnt => s
  | .digest j => { s with dig := s.dig.setWord j.val v }
  | .key j => { s with key := s.key.setWord j.val v }

/-! ## Host accesses (R47) -/

/-- `MemRead(off, size)`: the data, or none where the block raises BusError (R47, R51). -/
def memRead (s : State) (off size : Nat) : Option Word :=
  if size = 4 then (regAt s.cfg.keyMaxBytes off).map (readReg s) else none

/-- `MemWrite(off, size, v)`: the state after, or none where the block raises BusError (R47, R51). -/
def memWrite (s : State) (off size : Nat) (v : Word) : Option State :=
  if size = 4 then (regAt s.cfg.keyMaxBytes off).map (fun r => writeReg s r v) else none

/-! ## Completion (R79), error entry (R109) and the wipe (R80) -/

/-- `complete(code, F)`: the end of every command. With a code that is not `none` it is error entry
(R109): the code and the failed checks are saved in STATUS, DONE is set and PHASE returns to IDLE. The
snapshot is discarded (log entry 6). Returning from an error needs nothing (R110): the next `accept`
clears the code and the flags. -/
def complete (code : ErrCode) (F : ErrFlags) (s : State) : State :=
  { s with errcode := code, ef := F, done := true, phase := .idle, snap := Snapshot.discarded, delay := 0 }

/-- `complete_step()` for the command `i` (R79): validate, then `perform` if no check fails, then complete.
A failed command writes STATUS alone (R78). -/
def completeStep (i : Instr) (perform : State → State) (s : State) : State :=
  let F := checks i s.cfg.keyMaxBytes s.snap
  match errCodeOf F with
  | .none => complete .none F (perform s)
  | code => complete code F s

/-- `wipe()` (R80): every key byte 0x00, and KEYLEN 0. -/
def wipe (s : State) : State := { s with key := Memory.cleared, keylen := 0 }

/-- MACCNT counts one HMAC computation (R41). -/
def countMac (s : State) : State := { s with maccnt := s.maccnt + 1 }

/-! ## Reset (R119) -/

/-- The reset input is asserted: all state of the block takes its reset value, in any phase. The
parameters, and what is outside the block (the host's accesses, what it has read, the schedule), stay. -/
def resetBlock (s : State) : State :=
  { State.reset with cfg := s.cfg, pending := s.pending, reads := s.reads, latencies := s.latencies }

end Sys2Proof.Machine
end

