-- ==== Sys2Proof/Machine/Bus.lean ====
section
/-! DEFINITION. One step of the outside world: a host access, a poll of `wait`, or reset (20_memory.md R46,
R47, R56; 30_encoding.md R72; 70_reset_and_hazards.md R119). -/

namespace Sys2Proof.Machine

/-- The window offset of a bus address; none outside [OTPE_BASE, OTPE_BASE + 0x200) (R46, R54). -/
def windowOffset (c : Config) (addr : Nat) : Option Nat :=
  if c.otpeBase ≤ addr ∧ addr < c.otpeBase + 0x200 then some (addr - c.otpeBase) else none

/-- One host access has taken place: the events that remain are `rest`, and one access less comes before
the completion of the command in flight (R10). -/
def tick (rest : List BusEvent) (s : State) : State := { s with pending := rest, delay := s.delay - 1 }

/-- A read returned `v` to the host. -/
def deliver (v : Word) (s : State) : State := { s with reads := v :: s.reads }

/-- A host read of a bus address. -/
def busRead (addr size : Nat) (s : State) : Host.Outcome State Fault Refusal :=
  match windowOffset s.cfg addr with
  | none => .fault (.outsideWindow addr)
  | some off =>
    match memRead s off size with
    | none => .fault (.busError off)
    | some v => .next (deliver v s)

/-- A host write to a bus address. -/
def busWrite (addr size : Nat) (v : Word) (s : State) : Host.Outcome State Fault Refusal :=
  match windowOffset s.cfg addr with
  | none => .fault (.outsideWindow addr)
  | some off =>
    match memWrite s off size v with
    | none => .fault (.busError off)
    | some t => .next t

/-- A burst, whatever its direction, its length, the width of its beats and its data: never admitted (R51). -/
def busBurst (addr : Nat) (s : State) : Host.Outcome State Fault Refusal :=
  match windowOffset s.cfg addr with
  | none => .fault (.outsideWindow addr)
  | some off => .fault (.busError off)

/-- One poll of `wait` (R72): STATUS is read; `wait` stays the next event until the read has DONE = 1. -/
def pollStatus (rest : List BusEvent) (s : State) : State :=
  deliver (statusWord s) (tick (if s.done then rest else .poll :: rest) s)

/-- The next event from outside takes effect (R56). With none, the block stays as it is (log entry 4). -/
def hostStep (s : State) : Host.Outcome State Fault Refusal :=
  match s.pending with
  | [] => .next s
  | .read addr size :: rest => busRead addr size (tick rest s)
  | .write addr size v :: rest => busWrite addr size v (tick rest s)
  | .readBurst addr _ _ :: rest => busBurst addr (tick rest s)
  | .writeBurst addr _ _ :: rest => busBurst addr (tick rest s)
  | .poll :: rest => .next (pollStatus rest s)
  | .reset :: rest => .next (resetBlock (tick rest s))

end Sys2Proof.Machine
end

