-- ==== Sys2Proof/Machine/Operands.lean ====
section
/-! DEFINITION. The operands of a command, assembled from the snapshot (30_encoding.md R69), and the
numbers of an algorithm (R63, R87). -/

namespace Sys2Proof.Machine

/-- L(alg), the digest length in bytes (R63). -/
def digestLen : Alg → Nat
  | .sha1   => 20
  | .sha256 => 32
  | .sha512 => 64

/-- B(alg), the block size in bytes (R9, R63). -/
def blockLen : Alg → Nat
  | .sha1   => 64
  | .sha256 => 64
  | .sha512 => 128

/-- The secret K: `S.key[0..S.keylen)`. -/
def secretOf (S : Snapshot) : List Byte := S.key.firstBytes S.keylen.toNat

/-- The counter c: `S.ctr`. -/
def counterOf (S : Snapshot) : BitVec 64 := S.ctr

/-- The timestamp t: `S.ts`, in milliseconds. -/
def timestampOf (S : Snapshot) : Nat := S.ts.toNat

/-- The period p: `S.period`, in seconds. -/
def periodOf (S : Snapshot) : Nat := S.period.toNat

/-- The value v: `S.value`, 31 bits. -/
def valueOf (S : Snapshot) : Nat := S.value.toNat

/-- The digest D: `S.dig[0..L)`. -/
def digestOf (a : Alg) (S : Snapshot) : List Byte := S.dig.firstBytes (digestLen a)

end Sys2Proof.Machine
end

