-- ==== Sys2Proof/Machine/Control.lean ====
section
/-! DEFINITION. The commands that compute nothing: NOP, and the ILLEGAL word (40_command_execution.md
section 4). -/

namespace Sys2Proof.Machine

/-- NOP (R82): it completes and does nothing else. -/
def execNop (s : State) : Host.Outcome State Fault Refusal :=
  .next (completeStep .nop (fun t => t) s)

/-- An ILLEGAL word (R83) completes with IllegalCommand and EF_CMD, and changes nothing else. -/
def execIllegal (s : State) : Host.Outcome State Fault Refusal :=
  .next (complete (errCodeOf illegalChecks) illegalChecks s)

end Sys2Proof.Machine
end

