-- ==== Sys2Proof/Machine/Encoder.lean ====
section
/-! DEFINITION. The Counter Encoder and ENC (41_counter_encoder.md). -/

namespace Sys2Proof.Machine

/-- `enc64(c)` (R84): 8 bytes, most significant first. -/
def enc64 (c : BitVec 64) : List Byte :=
  [c.extractLsb' 56 8, c.extractLsb' 48 8, c.extractLsb' 40 8, c.extractLsb' 32 8,
   c.extractLsb' 24 8, c.extractLsb' 16 8, c.extractLsb' 8 8, c.extractLsb' 0 8]

/-- MSG_HI and MSG_LO take the encoded counter (R34). -/
def putMsg (M : List Byte) (s : State) : State :=
  { s with msgHi := packBe (byteAt M) 0, msgLo := packBe (byteAt M) 1 }

/-- `perform(ENC, S)` (R86). -/
def performEnc (s : State) : State := putMsg (enc64 (counterOf s.snap)) s

/-- ENC (R86). -/
def execEnc (s : State) : Host.Outcome State Fault Refusal :=
  .next (completeStep .enc performEnc s)

end Sys2Proof.Machine
end

