-- ==== Sys2Proof/Machine/Sha.lean ====
section
/-! DEFINITION. HASH_SHA1, HASH_SHA256 and HASH_SHA512 (00_scope.md R9, 42_hotp_engine.md R87). The spec
takes them as parameter functions and demands the instance "SHA-1, SHA-256 and SHA-512 as defined in FIPS
180-4", which it does not print: their text here is PRESUMED (log entry 8). The check values of
95_test_vectors.md section 2 pin it (Tests/Slice0.lean). -/

namespace Sys2Proof.Machine

/-! ## Padding and blocks -/

/-- The words of `w` bits, of `k` bytes each, at the start of `s`: `n` of them. -/
def wordsOf (w k : Nat) : Nat → List Byte → List (BitVec w)
  | 0, _ => []
  | n + 1, s => BitVec.ofNat w (bytesVal (s.take k)) :: wordsOf w k n (s.drop k)

/-- The padded message: a 1 bit, zeros, and the length in bits in the last `lenBytes` bytes, to a whole
number of blocks of `block` bytes. -/
def padMessage (block lenBytes : Nat) (m : List Byte) : List Byte :=
  m ++ [0x80] ++ zeros ((2 * block - 1 - lenBytes - m.length % block) % block) ++ bytesBe lenBytes (8 * m.length)

/-- The chaining value after `n` blocks of 16 words. -/
def chain {σ τ : Type} (compress : σ → List τ → σ) : Nat → σ → List τ → σ
  | 0, h, _ => h
  | n + 1, h, ws => chain compress n (compress h (ws.take 16)) (ws.drop 16)

/-- The first `n` words of the schedule that continues a window of 16 words by `next`. -/
def schedule {τ : Type} (next : List τ → τ) : Nat → List τ → List τ
  | 0, _ => []
  | n + 1, win => win.take 1 ++ schedule next n (win.drop 1 ++ [next win])

/-- The chaining value after a block: word by word, what the rounds made of it is added to it. -/
def addWords {w : Nat} (h r : List (BitVec w)) : List (BitVec w) := List.zipWith (fun x y => x + y) h r

/-- The bytes of a chaining value, `k` bytes a word. -/
def bytesOfWords {w : Nat} (k : Nat) (h : List (BitVec w)) : List Byte := h.flatMap fun x => bytesBe k x.toNat

/-! ## The bitwise functions -/

/-- Where `x` has a 1, the bit of `y`, else the bit of `z`. -/
def choose {w : Nat} (x y z : BitVec w) : BitVec w := (x &&& y) ^^^ (~~~x &&& z)

/-- The bit that at least two of the three words have. -/
def majority {w : Nat} (x y z : BitVec w) : BitVec w := (x &&& y) ^^^ (x &&& z) ^^^ (y &&& z)

/-- Three rotations, xored. -/
def rot3 {w : Nat} (i j k : Nat) (x : BitVec w) : BitVec w :=
  x.rotateRight i ^^^ x.rotateRight j ^^^ x.rotateRight k

/-- Two rotations and a shift, xored. -/
def rot2shift {w : Nat} (i j k : Nat) (x : BitVec w) : BitVec w :=
  x.rotateRight i ^^^ x.rotateRight j ^^^ (x >>> k)

/-! ## SHA-1 -/

/-- The word that follows a window of the SHA-1 schedule. -/
def sha1Next (win : List (BitVec 32)) : BitVec 32 :=
  (win.getD 13 0 ^^^ win.getD 8 0 ^^^ win.getD 2 0 ^^^ win.getD 0 0).rotateLeft 1

/-- The function and the constant of round `t` of SHA-1, which change every 20 rounds. -/
def sha1Mix (t : Nat) (b c d : BitVec 32) : BitVec 32 :=
  match t / 20 with
  | 0 => choose b c d + 0x5a827999
  | 1 => (b ^^^ c ^^^ d) + 0x6ed9eba1
  | 2 => majority b c d + 0x8f1bbcdc
  | _ => (b ^^^ c ^^^ d) + 0xca62c1d6

/-- Round `t` of SHA-1 with the schedule word `x`, on five words. -/
def sha1Round (t : Nat) (x : BitVec 32) (s : List (BitVec 32)) : List (BitVec 32) :=
  match s with
  | [a, b, c, d, e] => [a.rotateLeft 5 + sha1Mix t b c d + e + x, a, b.rotateLeft 30, c, d]
  | s => s

/-- The rounds from round `t` on. -/
def sha1Rounds (t : Nat) (ws s : List (BitVec 32)) : List (BitVec 32) :=
  match ws with
  | [] => s
  | x :: rest => sha1Rounds (t + 1) rest (sha1Round t x s)

/-- The compression function of SHA-1. -/
def sha1Compress (h block : List (BitVec 32)) : List (BitVec 32) :=
  addWords h (sha1Rounds 0 (schedule sha1Next 80 block) h)

/-- The initial chaining value of SHA-1: the five words of the number written here. -/
def sha1Init : List (BitVec 32) := wordsOf 32 4 5 (bytesBe 20 0x67452301efcdab8998badcfe10325476c3d2e1f0)

/-- HASH_SHA1: 20 bytes. -/
def sha1 (m : List Byte) : List Byte :=
  let p := padMessage 64 8 m
  bytesOfWords 4 (chain sha1Compress (p.length / 64) sha1Init (wordsOf 32 4 (p.length / 4) p))

/-! ## SHA-2, for words of `w` bits -/

/-- The four functions of one word that SHA-2 rotates and shifts with: of the rounds and of the schedule. -/
structure Sigmas (w : Nat) where
  round0    : BitVec w → BitVec w
  round1    : BitVec w → BitVec w
  schedule0 : BitVec w → BitVec w
  schedule1 : BitVec w → BitVec w

/-- The word that follows a window of the SHA-2 schedule. -/
def sha2Next {w : Nat} (σ : Sigmas w) (win : List (BitVec w)) : BitVec w :=
  σ.schedule1 (win.getD 14 0) + win.getD 9 0 + σ.schedule0 (win.getD 1 0) + win.getD 0 0

/-- A round of SHA-2 with the round constant and schedule word `kx`, on eight words. -/
def sha2Round {w : Nat} (σ : Sigmas w) (s : List (BitVec w)) (kx : BitVec w × BitVec w) : List (BitVec w) :=
  match s with
  | [a, b, c, d, e, f, g, h] =>
    let grow := h + σ.round1 e + choose e f g + (kx.1 + kx.2)
    [grow + (σ.round0 a + majority a b c), a, b, c, d + grow, e, f, g]
  | s => s

/-- The compression function of SHA-2 with the round constants `ks`. -/
def sha2Compress {w : Nat} (σ : Sigmas w) (ks h block : List (BitVec w)) : List (BitVec w) :=
  addWords h ((ks.zip (schedule (sha2Next σ) ks.length block)).foldl (sha2Round σ) h)

/-! ### The constants

FIPS 180-4 gives the constants of SHA-2 as the leading bits of the fractional parts of roots of the first primes;
they are computed here from that. -/

/-- The greatest `m` with `m ^ e ≤ x` among the numbers from `m` up that differ from it in the low `n` bits. -/
def rootFrom (e x : Nat) : Nat → Nat → Nat
  | 0, m => m
  | n + 1, m => if (m + 2 ^ n) ^ e ≤ x then rootFrom e x n (m + 2 ^ n) else rootFrom e x n m

/-- The first `w` bits of the fractional part of the `e`-th root of `p`, for a root below 32. -/
def rootFraction (e w p : Nat) : BitVec w := BitVec.ofNat w (rootFrom e (p * 2 ^ (e * w)) (w + 5) 0)

/-- `p` is a prime, for a `p` below 441: no number from 2 to 20 that is smaller divides it. -/
def smallPrime (p : Nat) : Bool :=
  decide (2 ≤ p) && (List.range 19).all fun d => decide (p ≤ d + 2) || decide (p % (d + 2) ≠ 0)

/-- The first `n` primes, for an `n` of at most 80. -/
def firstPrimes (n : Nat) : List Nat := ((List.range 410).filter smallPrime).take n

/-- The `n` round constants of SHA-2: from the cube roots. -/
def roundConstants (w n : Nat) : List (BitVec w) := (firstPrimes n).map (rootFraction 3 w)

/-- The initial chaining value of SHA-2: from the square roots of the first eight primes. -/
def initialWords (w : Nat) : List (BitVec w) := (firstPrimes 8).map (rootFraction 2 w)

/-! ### SHA-256 and SHA-512 -/

/-- The rotations and shifts of SHA-256. -/
def sha256Sigmas : Sigmas 32 :=
  { round0 := rot3 2 13 22, round1 := rot3 6 11 25, schedule0 := rot2shift 7 18 3, schedule1 := rot2shift 17 19 10 }

/-- The rotations and shifts of SHA-512. -/
def sha512Sigmas : Sigmas 64 :=
  { round0 := rot3 28 34 39, round1 := rot3 14 18 41, schedule0 := rot2shift 1 8 7, schedule1 := rot2shift 19 61 6 }

/-- HASH_SHA256: 32 bytes. -/
def sha256 (m : List Byte) : List Byte :=
  let p := padMessage 64 8 m
  bytesOfWords 4 (chain (sha2Compress sha256Sigmas (roundConstants 32 64)) (p.length / 64) (initialWords 32)
    (wordsOf 32 4 (p.length / 4) p))

/-- HASH_SHA512: 64 bytes. -/
def sha512 (m : List Byte) : List Byte :=
  let p := padMessage 128 16 m
  bytesOfWords 8 (chain (sha2Compress sha512Sigmas (roundConstants 64 80)) (p.length / 128) (initialWords 64)
    (wordsOf 64 8 (p.length / 8) p))

/-- HASH(alg) (R87). -/
def hash : Alg → List Byte → List Byte
  | .sha1   => sha1
  | .sha256 => sha256
  | .sha512 => sha512

end Sys2Proof.Machine
end

