-- ==== Sys2Proof/Machine/Hotp.lean ====
section
/-! DEFINITION. The HOTP engine: HMAC, dynamic truncation, the Digit Formatter, and MAC, TRUNC, FMT and HOTP
(42_hotp_engine.md). -/

namespace Sys2Proof.Machine

/-! ## Functions (section 1 of the file) -/

/-- K0, the key of exactly B bytes (R88): a longer key is hashed first. -/
def hmacKey (a : Alg) (K : List Byte) : List Byte :=
  if blockLen a < K.length then hash a K ++ zeros (blockLen a - digestLen a)
  else K ++ zeros (blockLen a - K.length)

/-- `HMAC(alg, K, m)` (R88). -/
def hmac (a : Alg) (K m : List Byte) : List Byte :=
  let K0 := hmacKey a K
  let inner := hash a (xorBytes K0 (rep 0x36 (blockLen a)) ++ m)
  hash a (xorBytes K0 (rep 0x5C (blockLen a)) ++ inner)

/-- The offset of `trunc(H)` (R89): the low nibble of the last byte of the digest. -/
def truncOffset (H : List Byte) : Nat := (byteAt H (H.length - 1)).toNat &&& 0x0F

/-- The value of `trunc(H)` at an offset (R89). -/
def truncBinary (H : List Byte) (offset : Nat) : Nat :=
  (((byteAt H offset).toNat &&& 0x7F) <<< 24) ||| (((byteAt H (offset + 1)).toNat &&& 0xFF) <<< 16)
    ||| (((byteAt H (offset + 2)).toNat &&& 0xFF) <<< 8) ||| ((byteAt H (offset + 3)).toNat &&& 0xFF)

/-- `trunc(H)` (R89): (offset, binary). -/
def trunc (H : List Byte) : Nat × Nat := (truncOffset H, truncBinary H (truncOffset H))

/-- The code of `fmt(v, d)` (R91). -/
def fmtCode (v d : Nat) : Nat := v % 10 ^ d

/-- The characters of `fmt(v, d)` (R91): exactly d of them, most significant first. -/
def fmtChars (v d : Nat) : List Byte :=
  (List.range d).map fun i => BitVec.ofNat 8 (0x30 + fmtCode v d / 10 ^ (d - 1 - i) % 10)

/-- `fmt(v, d)` (R91): (code, ch). -/
def fmt (v d : Nat) : Nat × List Byte := (fmtCode v d, fmtChars v d)

/-- The results of `hotp(alg, d, K, c)` (R94). -/
structure HotpResult where
  M      : List Byte
  H      : List Byte
  offset : Nat
  binary : Nat
  code   : Nat
  ch     : List Byte
  deriving DecidableEq, Repr

/-- `hotp(alg, d, K, c)` (R94). -/
def hotp (a : Alg) (d : Nat) (K : List Byte) (c : BitVec 64) : HotpResult :=
  let M := enc64 c
  let H := hmac a K M
  let t := trunc H
  let f := fmt t.2 d
  { M := M, H := H, offset := t.1, binary := t.2, code := f.1, ch := f.2 }

/-! ## Writing results -/

/-- `DIG <- H ++ zeros(64 - len(H))` (R42). -/
def putDigest (H : List Byte) (s : State) : State :=
  { s with dig := Memory.ofBytes (H ++ zeros (64 - H.length)) }

/-- OFFSET and BINARY take the result of `trunc` (R36, R37). -/
def putTrunc (t : Nat × Nat) (s : State) : State :=
  { s with offset := BitVec.ofNat 4 t.1, binary := BitVec.ofNat 31 t.2 }

/-- The 12 bytes of OUTC for a token of `d` characters (R93). -/
def outBytes (ch : List Byte) (d : Nat) : List Byte :=
  (List.range 12).map fun i => if i < d then byteAt ch i else 0x00

/-- `putfmt(code, ch, d)` (R93). -/
def putFmt (f : Nat × List Byte) (d : Nat) (s : State) : State :=
  { s with code := BitVec.ofNat 31 f.1, outlen := BitVec.ofNat 4 d, outc := Memory.ofBytes (outBytes f.2 d) }

/-- The registers that HOTP and TOTP write from `hotp(...)` (R98, R103), the count and the wipe. -/
def putHotp (r : HotpResult) (d : Nat) (s : State) : State :=
  wipe (countMac (putFmt (r.code, r.ch) d (putTrunc (r.offset, r.binary) (putDigest r.H (putMsg r.M s)))))

/-! ## Commands (section 2 of the file) -/

/-- `perform(MAC, S)` (R95). "HASH(3) is never evaluated" (R87): with no algorithm there is no effect. -/
def performMac (alg : AlgTag) (s : State) : State :=
  match alg with
  | none => s
  | some a =>
    let M := enc64 (counterOf s.snap)
    let H := hmac a (secretOf s.snap) M
    wipe (countMac (putDigest H (putMsg M s)))

/-- MAC (R95). -/
def execMac (alg : AlgTag) (s : State) : Host.Outcome State Fault Refusal :=
  .next (completeStep (.mac alg) (performMac alg) s)

/-- `perform(TRUNC, S)` (R96). With no algorithm there is no effect, and the check has failed before. -/
def performTrunc (alg : AlgTag) (d : Nat) (s : State) : State :=
  match alg with
  | none => s
  | some a =>
    let t := trunc (digestOf a s.snap)
    putFmt (fmt t.2 d) d (putTrunc t s)

/-- TRUNC (R96). -/
def execTrunc (alg : AlgTag) (d : Nat) (s : State) : Host.Outcome State Fault Refusal :=
  .next (completeStep (.trunc alg d) (performTrunc alg d) s)

/-- `perform(FMT, S)` (R97). -/
def performFmt (d : Nat) (s : State) : State := putFmt (fmt (valueOf s.snap) d) d s

/-- FMT (R97). -/
def execFmt (d : Nat) (s : State) : Host.Outcome State Fault Refusal :=
  .next (completeStep (.fmt d) (performFmt d) s)

/-- `perform(HOTP, S)` (R98). With no algorithm there is no effect, and the check has failed before. -/
def performHotp (alg : AlgTag) (d : Nat) (s : State) : State :=
  match alg with
  | none => s
  | some a => putHotp (hotp a d (secretOf s.snap) (counterOf s.snap)) d s

/-- HOTP (R98). -/
def execHotp (alg : AlgTag) (d : Nat) (s : State) : Host.Outcome State Fault Refusal :=
  .next (completeStep (.hotp alg d) (performHotp alg d) s)

end Sys2Proof.Machine
end

