-- ==== Sys2Proof/Machine/Totp.lean ====
section
/-! DEFINITION. The Time-Step Mapper, TSTEP and TOTP (43_totp_engine.md). -/

namespace Sys2Proof.Machine

/-- `tstep(t, p)` (R99): exact floor divisions, first by 1000, then by the period. -/
def tstep (t p : Nat) : Nat := t / 1000 / p

/-- The time step of a snapshot, as the 64-bit counter it becomes (R100: it always fits). -/
def stepOf (S : Snapshot) : BitVec 64 := BitVec.ofNat 64 (tstep (timestampOf S) (periodOf S))

/-- TSTEP_HI and TSTEP_LO take a time step (R35). -/
def putTstep (n : BitVec 64) (s : State) : State :=
  { s with tstepHi := n.extractLsb' 32 32, tstepLo := n.extractLsb' 0 32 }

/-- `perform(TSTEP, S)` (R102). -/
def performTstep (s : State) : State := putTstep (stepOf s.snap) s

/-- TSTEP (R102). -/
def execTstep (s : State) : Host.Outcome State Fault Refusal :=
  .next (completeStep .tstep performTstep s)

/-- `totp(alg, d, p, K, t)` (R101). -/
def totp (a : Alg) (d p : Nat) (K : List Byte) (t : Nat) : HotpResult :=
  hotp a d K (BitVec.ofNat 64 (tstep t p))

/-- `perform(TOTP, S)` (R103). With no algorithm there is no effect, and the check has failed before. -/
def performTotp (alg : AlgTag) (d : Nat) (s : State) : State :=
  match alg with
  | none => s
  | some a =>
    putHotp (totp a d (periodOf s.snap) (secretOf s.snap) (timestampOf s.snap)) d (putTstep (stepOf s.snap) s)

/-- TOTP (R103). -/
def execTotp (alg : AlgTag) (d : Nat) (s : State) : Host.Outcome State Fault Refusal :=
  .next (completeStep (.totp alg d) (performTotp alg d) s)

end Sys2Proof.Machine
end

