-- ==== Sys2Proof/Machine/Dispatch.lean ====
section
/-! DEFINITION. The completion step of each command of spec/opcode_table.json (30_encoding.md R65). -/

namespace Sys2Proof.Machine

def exec (i : Instr) (s : State) : Host.Outcome State Fault Refusal :=
  match i with
  | .nop => Sys2Proof.Machine.execNop s
  | .enc => Sys2Proof.Machine.execEnc s
  | .mac alg => Sys2Proof.Machine.execMac alg s
  | .trunc alg digits => Sys2Proof.Machine.execTrunc alg digits s
  | .fmt digits => Sys2Proof.Machine.execFmt digits s
  | .hotp alg digits => Sys2Proof.Machine.execHotp alg digits s
  | .tstep => Sys2Proof.Machine.execTstep s
  | .totp alg digits => Sys2Proof.Machine.execTotp alg digits s

end Sys2Proof.Machine
end

