-- ==== Sys2Proof/Machine/Engine.lean ====
section
/-! DEFINITION. The engine's completion step (40_command_execution.md R79) and when it comes
(00_scope.md R10). -/

namespace Sys2Proof.Machine

/-- The engine moves next: a command is in flight (R79), and either its latency has run out (R10) or the
host has nothing to do. -/
def engineMoves (s : State) : Bool :=
  s.phase.isBusy && (decide (s.delay = 0) || s.pending.isEmpty)

/-- The completion step of the command in flight (R79): the word of the snapshot is decoded and runs. -/
def engineStep (s : State) : Host.Outcome State Fault Refusal :=
  match decode s.snap.cmd with
  | .ok i => exec i s
  | .error _ => execIllegal s

end Sys2Proof.Machine
end

