-- ==== Sys2Proof/Machine/Step.lean ====
section
/-! DEFINITION. One step of the machine: one element of the total order of host accesses and completion
steps (20_memory.md R56). -/

namespace Sys2Proof.Machine

/-- The engine's completion step where it is its turn, else the next event from outside. -/
def step (s : State) : Host.Outcome State Fault Refusal :=
  if engineMoves s then engineStep s else hostStep s

/-- `s` with the command word `w` (of `nbits` bits) accepted and its latency run out, so that the very
next step is its completion step. A command comes only by a host write to CMD (R19), and this is that
write's effect (R73); the host's own events stay (log entry 3). -/
def State.withFetchWord (s : State) (nbits w : Nat) : State :=
  { accept (tableWord nbits w) s with delay := 0 }

end Sys2Proof.Machine
end

