-- ==== Sys2Proof/Machine/HostProgram.lean ====
section
/-! DEFINITION. The notation of host programs: command lines, bus accesses and pseudo-instructions
(30_encoding.md R70, R71, R72). A program is a list of lines; its encoding is the list of bus events that
the host performs (`State.pending`). -/

namespace Sys2Proof.Machine

/-! ## Command syntax (R70) -/

/-- A command line: a command by its mnemonic, or a raw word by `.cmd`. -/
inductive CmdLine where
  | asm (i : Instr)
  | raw (w : Word)
  deriving DecidableEq, Repr

/-- The word a command line stands for. -/
def CmdLine.word : CmdLine → Word
  | .asm i => encode i
  | .raw w => w

/-- The name of an ALG operand; `alg3` writes the unsupported tag. -/
def algText : AlgTag → String
  | some .sha1   => "sha1"
  | some .sha256 => "sha256"
  | some .sha512 => "sha512"
  | none         => "alg3"

/-- The line of a command. -/
def instrText : Instr → String
  | .nop       => "nop"
  | .enc       => "enc"
  | .mac a     => "mac " ++ algText a
  | .trunc a d => "trunc " ++ algText a ++ ", " ++ toString d
  | .fmt d     => "fmt " ++ toString d
  | .hotp a d  => "hotp " ++ algText a ++ ", " ++ toString d
  | .tstep     => "tstep"
  | .totp a d  => "totp " ++ algText a ++ ", " ++ toString d

/-- One hexadecimal digit, as `0xHHHHHHHH` writes it. -/
def hexDigit (n : Nat) : Char := ['0', '1', '2', '3', '4', '5', '6', '7', '8', '9', 'A', 'B', 'C', 'D', 'E', 'F'].getD n '0'

/-- A word as `0xHHHHHHHH`. -/
def hexText (w : Word) : String :=
  "0x" ++ String.ofList ((List.range 8).map fun i => hexDigit (w.toNat / 16 ^ (7 - i) % 16))

/-- A command line as it is written. -/
def CmdLine.text : CmdLine → String
  | .asm i => instrText i
  | .raw w => ".cmd " ++ hexText w

/-! ## Host lines (R71) -/

/-- A line of a host program. The values its reads return stand in `State.reads`, newest first. -/
inductive HostLine where
  | wr (r : Reg) (v : Word)
  | rd (r : Reg)
  | wait
  | command (c : CmdLine)
  deriving DecidableEq, Repr

/-- The bus event a line stands for. A command line stands for `wr CMD, <word>`. -/
def HostLine.event (base : Nat) : HostLine → BusEvent
  | .wr r v    => .write (base + r.off) 4 v
  | .rd r      => .read (base + r.off) 4
  | .wait      => .poll
  | .command c => .write (base + Reg.off .cmd) 4 c.word

/-- The bus events of a program. -/
def events (base : Nat) (p : List HostLine) : List BusEvent := p.map (HostLine.event base)

/-- The host is about to perform the program `p`, and the commands it issues have the latencies `ls`. -/
def withProgram (p : List HostLine) (ls : List Nat) (s : State) : State :=
  { s with pending := events s.cfg.otpeBase p, latencies := ls }

/-! ## Pseudo-instructions (R72) -/

/-- `setctr c64`. -/
def setctr (c : BitVec 64) : List HostLine :=
  [.wr .ctrHi (c.extractLsb' 32 32), .wr .ctrLo (c.extractLsb' 0 32)]

/-- `setts t64`. -/
def setts (t : BitVec 64) : List HostLine :=
  [.wr .tsHi (t.extractLsb' 32 32), .wr .tsLo (t.extractLsb' 0 32)]

/-- `loadkey "bytes"`, for a secret that fits the key buffer. -/
def loadkey (K : List Byte) : List HostLine :=
  (List.range ((K.length + 3) / 4)).map
      (fun j => .wr (.key (Fin.ofNat 64 j)) (packBe (byteAt (K ++ zeros 3)) j))
    ++ [.wr .keylen (BitVec.ofNat 32 K.length)]

/-- `hotpx alg, d, c64, "bytes"`. -/
def hotpx (a : AlgTag) (d : Nat) (c : BitVec 64) (K : List Byte) : List HostLine :=
  loadkey K ++ setctr c ++ [.command (.asm (.hotp a d)), .wait]

/-- `totpx alg, d, p, t64, "bytes"`. -/
def totpx (a : AlgTag) (d : Nat) (p : Word) (t : BitVec 64) (K : List Byte) : List HostLine :=
  loadkey K ++ [.wr .period p] ++ setts t ++ [.command (.asm (.totp a d)), .wait]

/-- `readtok`: the four reads. -/
def readtok : List HostLine := [.rd .outlen, .rd (.out 0), .rd (.out 1), .rd (.out 2)]

/-- The token of a `readtok`, from the four values it read. -/
def tokenOf (n o0 o1 o2 : Word) : List Byte := (unpackBe o0 ++ unpackBe o1 ++ unpackBe o2).take n.toNat

/-- The token of the `readtok` that the host has just performed, if it has performed one. -/
def tokenRead (s : State) : Option (List Byte) :=
  match s.reads with
  | o2 :: o1 :: o0 :: n :: _ => some (tokenOf n o0 o1 o2)
  | _ => none

end Sys2Proof.Machine
end

