-- ==== Sys2Proof/Safety.lean ====
section
/-! DEFINITION. The words that claims are stated in: whose turn it is, what a host sees of a state, what a
command may write, the tables of the spec that claims compare the machine with, and the invariant. -/

namespace Sys2Proof.Machine

/-! ## Turns -/

/-- The host's event is next: no command is in flight, or its latency has not run out (R10). -/
abbrev HostMoves (s : State) : Prop := s.phase = .idle ∨ s.delay ≠ 0

/-- The engine's completion step is next (R79). -/
abbrev EngineMoves (s : State) : Prop := s.phase = .busy ∧ (s.delay = 0 ∨ s.pending = [])

/-! ## What is kept -/

/-- The parameters and what is outside the block are the same. -/
abbrev OutsideKept (s t : State) : Prop :=
  t.cfg = s.cfg ∧ t.pending = s.pending ∧ t.reads = s.reads ∧ t.latencies = s.latencies

/-- Every key byte reads as before. -/
def KeyKept (s t : State) : Prop := ∀ i, t.key.read i = s.key.read i

/-- Every key byte is 0x00 and KEYLEN is 0 (R80). -/
def KeyWiped (t : State) : Prop := (∀ i, t.key.read i = 0) ∧ t.keylen = 0

/-- The STATUS word that has the bits `w` and, besides them, only OVR (R27). -/
def statusWith (w : Word) (ovr : Bool) : Word := w ||| (if ovr then 0x4 else 0)

/-- The end of a completion step (R79): PHASE is IDLE, STATUS has the bits `w`, OVR is as it was, and
nothing outside the block has changed. -/
structure Finished (s t : State) (w : Word) : Prop where
  phase   : t.phase = .idle
  status  : readReg t .status = statusWith w s.ovr
  ovr     : t.ovr = s.ovr
  outside : OutsideKept s t

/-- The state with other key bytes, in the buffer and in the snapshot: all that is secret (R43, R113). -/
def withKeys (k k' : Memory) (s : State) : State := { s with key := k, snap := { s.snap with key := k' } }

/-! ## Tables of the spec -/

/-- R44's table: the registers that a command writes at a successful completion (KEY apart). -/
def writesReg (i : Instr) : Reg → Bool
  | .status => true
  | .msgHi => [1, 2, 5, 7].contains (opOf i).toNat
  | .msgLo => [1, 2, 5, 7].contains (opOf i).toNat
  | .digest _ => [2, 5, 7].contains (opOf i).toNat
  | .offset => [3, 5, 7].contains (opOf i).toNat
  | .binary => [3, 5, 7].contains (opOf i).toNat
  | .code => [3, 4, 5, 7].contains (opOf i).toNat
  | .outlen => [3, 4, 5, 7].contains (opOf i).toNat
  | .out _ => [3, 4, 5, 7].contains (opOf i).toNat
  | .tstepHi => [6, 7].contains (opOf i).toNat
  | .tstepLo => [6, 7].contains (opOf i).toNat
  | .maccnt => [2, 5, 7].contains (opOf i).toNat
  | .keylen => [2, 5, 7].contains (opOf i).toNat
  | .id => false
  | .cap => false
  | .ctrl => false
  | .cmd => false
  | .period => false
  | .value => false
  | .ctrHi => false
  | .ctrLo => false
  | .tsHi => false
  | .tsLo => false
  | .key _ => false

/-- The rows of R22 that name a register, where KEY_MAX_BYTES is `k`. -/
def mappedReg (k : Nat) : Reg → Prop
  | .key j => 4 * j.val < k
  | _ => True

/-- The offsets of R22 and R54 at which a register lies, where KEY_MAX_BYTES is `k`. -/
def mappedOffset (k off : Nat) : Prop :=
  off % 4 = 0 ∧ (off < 0x60 ∨ (0x80 ≤ off ∧ off < 0xC0) ∨ (0x100 ≤ off ∧ off < 0x100 + k))

/-- The bits of a written word that an RW register stores (R26 and R29 to R33, R42); none for the others. -/
def storedBits : Reg → Option Word
  | .ctrl => some 0x00000001
  | .keylen => some 0x000001FF
  | .period => some 0xFFFFFFFF
  | .value => some 0x7FFFFFFF
  | .ctrHi => some 0xFFFFFFFF
  | .ctrLo => some 0xFFFFFFFF
  | .tsHi => some 0xFFFFFFFF
  | .tsLo => some 0xFFFFFFFF
  | .digest _ => some 0xFFFFFFFF
  | _ => none

/-- The RO registers of R22. -/
def readOnlyReg : Reg → Bool
  | .id => true
  | .cap => true
  | .msgHi => true
  | .msgLo => true
  | .tstepHi => true
  | .tstepLo => true
  | .offset => true
  | .binary => true
  | .code => true
  | .outlen => true
  | .out _ => true
  | .maccnt => true
  | _ => false

/-- The reset value of a register (R22, R24, R25, R30), where KEY_MAX_BYTES is `k`. -/
def resetWord (k : Nat) : Reg → Word
  | .id => 0x4F545001
  | .cap => BitVec.ofNat 32 (0x7A000 + k)
  | .period => 0x0000001E
  | _ => 0x00000000

/-! ## The truncated value and the token, in numbers -/

/-- The low nibble of the last byte of a digest of `L` bytes (R89). -/
def offsetOf (L : Nat) (H : List Byte) : Nat := (byteAt H (L - 1)).toNat % 16

/-- The four bytes at the offset as one number, most significant first, without its top bit (R89). -/
def binaryOf (L : Nat) (H : List Byte) : Nat :=
  bytesVal [byteAt H (offsetOf L H), byteAt H (offsetOf L H + 1), byteAt H (offsetOf L H + 2),
    byteAt H (offsetOf L H + 3)] % 2 ^ 31

/-- Character `i` of `v` written with `d` decimal digits, in ASCII (R91). -/
def digitChar (v d i : Nat) : Byte := BitVec.ofNat 8 (0x30 + v / 10 ^ (d - 1 - i) % 10)

/-- CODE, OUTLEN and OUTC hold `v` as a token of `d` characters (R38, R39, R40, R93). -/
structure HoldsToken (t : State) (v d : Nat) : Prop where
  code   : readReg t .code = BitVec.ofNat 32 (v % 10 ^ d)
  outlen : readReg t .outlen = BitVec.ofNat 32 d
  chars  : ∀ i < d, t.outc.read i = digitChar v d i
  rest   : ∀ i, d ≤ i → t.outc.read i = 0

/-! ## The invariant -/

/-- A buffer of `n` bytes: in canonical form, with nothing listed beyond. -/
abbrev bufferWf (n : Nat) (m : Memory) : Prop := m.wf ∧ ∀ c ∈ m, c.1 < n

/-- What holds of every state of the machine after reset, whatever the schedule. -/
structure Inv (s : State) : Prop where
  /-- The parameters are legal (R7). -/
  cfg       : s.cfg.wf
  /-- The buffers have their lengths (R40, R42, R43). -/
  key       : bufferWf s.cfg.keyMaxBytes s.key
  dig       : bufferWf 64 s.dig
  outc      : bufferWf 12 s.outc
  /-- So has the snapshot of a command in flight (R20). -/
  snapKey   : s.phase = .busy → bufferWf s.cfg.keyMaxBytes s.snap.key
  snapDig   : s.phase = .busy → bufferWf 64 s.snap.dig
  /-- The command in flight is the last accepted word (R28, R74). -/
  snapCmd   : s.phase = .busy → s.snap.cmd = s.cmd
  /-- While a command is in flight DONE, ERRCODE and EF_* are clear (R73). -/
  busyDone  : s.phase = .busy → s.done = false
  busyFlags : s.phase = .busy → s.ef = {}
  /-- ERRCODE is the highest-priority failed check (R77, R108). -/
  errcode   : s.errcode = errCodeOf s.ef
  /-- EF_COUNTER always reads 0 (R106). -/
  counter   : s.ef.counter = false
  /-- EF_CMD stands alone (R77). -/
  cmdAlone  : s.ef.cmd = true → s.ef = { cmd := true }
  /-- OUTLEN is at most DIGITS_MAX, and CODE and OUTC are one token of OUTLEN characters (R39, R40, R92). -/
  outlen    : s.outlen.toNat ≤ 10
  code      : s.code.toNat < 10 ^ s.outlen.toNat
  chars     : ∀ i < s.outlen.toNat, s.outc.read i = digitChar s.code.toNat s.outlen.toNat i
  rest      : ∀ i, s.outlen.toNat ≤ i → s.outc.read i = 0
  /-- TSTEP is in the range of the Time-Step Mapper (R100). -/
  tstep     : (s.tstepHi ++ s.tstepLo).toNat ≤ 18446744073709551

end Sys2Proof.Machine
end

