-- ==== Sys2Proof/Certificates/Slice0/Obligations.lean ====
section
/-! DEFINITION. The statements for the provers, each with the rule of spec/ it formalises. -/

open Sys2Proof Sys2Proof.Machine

/-! ## The command word (30_encoding.md) -/

/-- R62, R65, R66: a well-formed command written as a word is decoded to itself, whatever stands in the
fields it ignores. -/
def Obligations.DecodeOfEncodeIsTheCommand : Prop :=
  ∀ (i : Instr) (ignoredAlg : BitVec 2) (ignoredDigits : BitVec 4), i.wf = true →
    decode (encodeWith ignoredAlg ignoredDigits i) = .ok i

/-- R67: a word that decodes is the word of its command, with its own ignored fields: no bit is dropped. -/
def Obligations.EncodeOfDecodeIsTheWord : Prop :=
  ∀ (w : Word) (i : Instr), decode w = .ok i →
    i.wf = true ∧ encodeWith (algField w) (digitsField w) i = w

/-- R67, in numbers: the case table of `decode`, and the match under the mask 0xFFFFF0CF. -/
def Obligations.DecodeFollowsTheOpcodeMap : Prop :=
  ∀ w : Word,
    let n := w.toNat
    let alg : AlgTag := if n / 16 % 4 = 0 then some .sha1 else if n / 16 % 4 = 1 then some .sha256
      else if n / 16 % 4 = 2 then some .sha512 else none
    let d := n / 256 % 16
    ((n / 64 % 4 ≠ 0 ∨ n / 4096 ≠ 0 ∨ 8 ≤ n % 16) → ∃ e, decode w = .error e) ∧
    (n / 64 % 4 = 0 → n / 4096 = 0 →
      (n % 16 = 0 → decode w = .ok .nop) ∧ (n % 16 = 1 → decode w = .ok .enc) ∧
      (n % 16 = 2 → decode w = .ok (.mac alg)) ∧ (n % 16 = 3 → decode w = .ok (.trunc alg d)) ∧
      (n % 16 = 4 → decode w = .ok (.fmt d)) ∧ (n % 16 = 5 → decode w = .ok (.hotp alg d)) ∧
      (n % 16 = 6 → decode w = .ok .tstep) ∧ (n % 16 = 7 → decode w = .ok (.totp alg d))) ∧
    ((∃ i, decode w = .ok i) ↔ ∃ op < 8, w &&& 0xFFFFF0CF#32 = BitVec.ofNat 32 op)

/-- R66, R70 and 95_test_vectors.md: words the spec writes out, and the commands they stand for. -/
def Obligations.WordsOfTheSpecDecode : Prop :=
  decode 0x00000000 = .ok .nop ∧ decode 0x00000F31 = .ok .enc ∧ decode 0x00000012 = .ok (.mac (some .sha256)) ∧
  decode 0x00000A03 = .ok (.trunc (some .sha1) 10) ∧ decode 0x00000804 = .ok (.fmt 8) ∧
  decode 0x00000605 = .ok (.hotp (some .sha1) 6) ∧ decode 0x00000006 = .ok .tstep ∧
  decode 0x00000827 = .ok (.totp (some .sha512) 8) ∧ decode 0x00000037 = .ok (.totp none 0) ∧
  decode 0x00000008 = .error .reservedOp ∧ decode 0x00000040 = .error .reservedField ∧
  decode 0x00001000 = .error .reservedField

/-! ## The step -/

/-- R79: where it is the engine's turn, a step runs the command that the snapshot's word decodes to. When the
engine's turn comes is the model's schedule (log entry 2). -/
def Obligations.StepRunsTheDecodedCommand : Prop :=
  ∀ (s : State) (i : Instr), EngineMoves s → decode s.snap.cmd = .ok i → step s = exec i s

/-- R73, R74, R79: with the word of a well-formed command put in flight, the next step runs it on the
operands that the registers hold. `withFetchWord` is the model's own: it stands for a host write to CMD with
latency 0 (log entries 2 and 3). -/
def Obligations.FetchedWordRunsNext : Prop :=
  ∀ (s : State) (i : Instr), i.wf = true →
    let u := s.withFetchWord 32 (encode i).toNat
    step u = exec i u ∧ u.snap.keylen = s.keylen ∧ u.snap.key = s.key ∧ u.snap.period = s.period ∧
      u.snap.value = s.value ∧ u.snap.ctr = s.ctrHi ++ s.ctrLo ∧ u.snap.ts = s.tsHi ++ s.tsLo ∧
      u.snap.dig = s.dig

/-- R79 and 93_implementation_defined.md ("no `stuck` case"): a completion step always answers a next
state, which is IDLE with DONE set; and no step is refused. -/
def Obligations.EveryCompletionStepCompletes : Prop :=
  (∀ s : State, EngineMoves s → ∃ t, step s = .next t ∧ t.phase = .idle ∧ t.done = true ∧ t.ovr = s.ovr) ∧
  ∀ (s : State) (r : Refusal), step s ≠ .refused r

/-- R83: an illegal word completes with IllegalCommand and EF_CMD, and changes nothing else. -/
def Obligations.IllegalWordCompletesWithItsError : Prop :=
  ∀ s : State, EngineMoves s →
    let n := s.snap.cmd.toNat
    (8 ≤ n % 16 ∨ n / 64 % 4 ≠ 0 ∨ n / 4096 ≠ 0) →
    ∃ t, step s = .next t ∧ Finished s t 0x2062 ∧ KeyKept s t ∧ ∀ r, r ≠ .status → readReg t r = readReg s r

/-! ## Acceptance and the snapshot (40_command_execution.md) -/

/-- R73: a CMD write while IDLE is accepted, whatever the word. -/
def Obligations.CommandWriteWhileIdleIsAccepted : Prop :=
  ∀ (s : State) (w : Word) (rest : List BusEvent), s.phase = .idle →
    s.pending = .write (s.cfg.otpeBase + 0x010) 4 w :: rest →
    ∃ t, step s = .next t ∧ t.phase = .busy ∧ readReg t .cmd = w ∧
      t.snap = { cmd := w, keylen := s.keylen, key := s.key, period := s.period, value := s.value,
                 ctr := s.ctrHi ++ s.ctrLo, ts := s.tsHi ++ s.tsLo, dig := s.dig } ∧
      readReg t .status = statusWith 0x1 s.ovr ∧ KeyKept s t ∧ t.pending = rest ∧
      ∀ r, r ≠ .cmd → r ≠ .status → readReg t r = readReg s r

/-- R75: a CMD write while BUSY is dropped, and OVR is set. -/
def Obligations.CommandWriteWhileBusyIsDropped : Prop :=
  ∀ (s : State) (w : Word) (rest : List BusEvent), s.phase = .busy → s.delay ≠ 0 →
    s.pending = .write (s.cfg.otpeBase + 0x010) 4 w :: rest →
    ∃ t, step s = .next t ∧ t.phase = .busy ∧ t.snap = s.snap ∧ t.ovr = true ∧
      readReg t .status = readReg s .status ||| 0x4 ∧ KeyKept s t ∧ t.pending = rest ∧
      ∀ r, r ≠ .status → readReg t r = readReg s r

/-- R74: a host write to any register while a command is in flight leaves the snapshot and the command in
flight as they are. -/
def Obligations.HostWritesDoNotReachTheSnapshot : Prop :=
  ∀ (s : State) (r : Reg) (v : Word) (rest : List BusEvent), s.phase = .busy → s.delay ≠ 0 →
    mappedReg s.cfg.keyMaxBytes r → s.pending = .write (s.cfg.otpeBase + r.off) 4 v :: rest →
    ∃ t, step s = .next t ∧ t.snap = s.snap ∧ t.phase = .busy ∧ t.cmd = s.cmd

/-- R81: what a command writes is a function of the command and the snapshot: two states with the same
snapshot and parameters get the same results and the same error, whatever else they hold. -/
def Obligations.ResultsDependOnTheSnapshotAlone : Prop :=
  ∀ (i : Instr) (s₁ s₂ : State), s₁.snap = s₂.snap → s₁.cfg = s₂.cfg →
    ∃ t₁ t₂, exec i s₁ = .next t₁ ∧ exec i s₂ = .next t₂ ∧ t₁.errcode = t₂.errcode ∧ t₁.ef = t₂.ef ∧
      (t₁.errcode = .none → ∀ r, writesReg i r = true → r ≠ .status → r ≠ .maccnt →
        readReg t₁ r = readReg t₂ r)

/-! ## What each command does -/

/-- R82: NOP completes, and changes nothing but STATUS. -/
def Obligations.NopCompletes : Prop :=
  ∀ s : State, ∃ t, exec .nop s = .next t ∧ Finished s t 0x2 ∧ KeyKept s t ∧
    ∀ r, r ≠ .status → readReg t r = readReg s r

/-- R86: ENC writes the two halves of the counter to MSG_HI and MSG_LO, and nothing else but STATUS. -/
def Obligations.EncWritesTheCounter : Prop :=
  ∀ s : State, ∃ t, exec .enc s = .next t ∧ Finished s t 0x2 ∧ KeyKept s t ∧
    readReg t .msgHi = s.snap.ctr.extractLsb' 32 32 ∧ readReg t .msgLo = s.snap.ctr.extractLsb' 0 32 ∧
    ∀ r, r ≠ .status → r ≠ .msgHi → r ≠ .msgLo → readReg t r = readReg s r

/-- R95: MAC, with a supported algorithm and a key length that fits. -/
def Obligations.MacWritesTheHmac : Prop :=
  ∀ (a : Alg) (s : State), s.snap.keylen.toNat ≤ s.cfg.keyMaxBytes →
    let H := hmac a (s.snap.key.firstBytes s.snap.keylen.toNat) (enc64 s.snap.ctr)
    ∃ t, exec (.mac (some a)) s = .next t ∧ Finished s t 0x2 ∧ KeyWiped t ∧
      readReg t .msgHi = s.snap.ctr.extractLsb' 32 32 ∧ readReg t .msgLo = s.snap.ctr.extractLsb' 0 32 ∧
      (∀ j : Fin 16, readReg t (.digest j) = packBe (byteAt (H ++ zeros (64 - digestLen a))) j.val) ∧
      readReg t .maccnt = readReg s .maccnt + 1 ∧
      ∀ r, writesReg (.mac (some a)) r = false → readReg t r = readReg s r

/-- R96: TRUNC, with a supported algorithm and 1 to 10 digits. -/
def Obligations.TruncWritesTheToken : Prop :=
  ∀ (a : Alg) (d : Nat) (s : State), 1 ≤ d → d ≤ 10 →
    let D := s.snap.dig.firstBytes (digestLen a)
    ∃ t, exec (.trunc (some a) d) s = .next t ∧ Finished s t 0x2 ∧ KeyKept s t ∧
      readReg t .offset = BitVec.ofNat 32 (offsetOf (digestLen a) D) ∧
      readReg t .binary = BitVec.ofNat 32 (binaryOf (digestLen a) D) ∧
      HoldsToken t (binaryOf (digestLen a) D) d ∧
      ∀ r, writesReg (.trunc (some a) d) r = false → readReg t r = readReg s r

/-- R97: FMT, with 1 to 10 digits. -/
def Obligations.FmtWritesTheToken : Prop :=
  ∀ (d : Nat) (s : State), 1 ≤ d → d ≤ 10 →
    ∃ t, exec (.fmt d) s = .next t ∧ Finished s t 0x2 ∧ KeyKept s t ∧ HoldsToken t s.snap.value.toNat d ∧
      ∀ r, writesReg (.fmt d) r = false → readReg t r = readReg s r

/-- R98: HOTP, with a supported algorithm, 1 to 10 digits and a key length that fits. -/
def Obligations.HotpWritesTheToken : Prop :=
  ∀ (a : Alg) (d : Nat) (s : State), 1 ≤ d → d ≤ 10 → s.snap.keylen.toNat ≤ s.cfg.keyMaxBytes →
    let H := hmac a (s.snap.key.firstBytes s.snap.keylen.toNat) (enc64 s.snap.ctr)
    ∃ t, exec (.hotp (some a) d) s = .next t ∧ Finished s t 0x2 ∧ KeyWiped t ∧
      readReg t .msgHi = s.snap.ctr.extractLsb' 32 32 ∧ readReg t .msgLo = s.snap.ctr.extractLsb' 0 32 ∧
      (∀ j : Fin 16, readReg t (.digest j) = packBe (byteAt (H ++ zeros (64 - digestLen a))) j.val) ∧
      readReg t .offset = BitVec.ofNat 32 (offsetOf (digestLen a) H) ∧
      readReg t .binary = BitVec.ofNat 32 (binaryOf (digestLen a) H) ∧
      HoldsToken t (binaryOf (digestLen a) H) d ∧ readReg t .maccnt = readReg s .maccnt + 1 ∧
      ∀ r, writesReg (.hotp (some a) d) r = false → readReg t r = readReg s r

/-- R102: TSTEP, with a period that is not 0. -/
def Obligations.TstepWritesTheTimeStep : Prop :=
  ∀ s : State, s.snap.period ≠ 0 →
    ∃ t, exec .tstep s = .next t ∧ Finished s t 0x2 ∧ KeyKept s t ∧
      (readReg t .tstepHi).toNat * 2 ^ 32 + (readReg t .tstepLo).toNat
        = s.snap.ts.toNat / 1000 / s.snap.period.toNat ∧
      ∀ r, writesReg .tstep r = false → readReg t r = readReg s r

/-- R103: TOTP, with a supported algorithm, 1 to 10 digits, a period that is not 0 and a key length that
fits. -/
def Obligations.TotpWritesTheToken : Prop :=
  ∀ (a : Alg) (d : Nat) (s : State), 1 ≤ d → d ≤ 10 → s.snap.period ≠ 0 →
    s.snap.keylen.toNat ≤ s.cfg.keyMaxBytes →
    let n := s.snap.ts.toNat / 1000 / s.snap.period.toNat
    let H := hmac a (s.snap.key.firstBytes s.snap.keylen.toNat) (enc64 (BitVec.ofNat 64 n))
    ∃ t, exec (.totp (some a) d) s = .next t ∧ Finished s t 0x2 ∧ KeyWiped t ∧
      (readReg t .tstepHi).toNat * 2 ^ 32 + (readReg t .tstepLo).toNat = n ∧
      (readReg t .msgHi).toNat * 2 ^ 32 + (readReg t .msgLo).toNat = n ∧
      (∀ j : Fin 16, readReg t (.digest j) = packBe (byteAt (H ++ zeros (64 - digestLen a))) j.val) ∧
      readReg t .offset = BitVec.ofNat 32 (offsetOf (digestLen a) H) ∧
      readReg t .binary = BitVec.ofNat 32 (binaryOf (digestLen a) H) ∧
      HoldsToken t (binaryOf (digestLen a) H) d ∧ readReg t .maccnt = readReg s .maccnt + 1 ∧
      ∀ r, writesReg (.totp (some a) d) r = false → readReg t r = readReg s r

/-! ## Validation, the wipe and the count -/

/-- R105, R76: the EF_* bits of STATUS after each command, by the fields the command uses. -/
def Obligations.ErrorFlagsOfEachCommand : Prop :=
  ∀ (s : State),
    let k := s.cfg.keyMaxBytes
    let badDigits (d : Nat) : Bool := !(decide (1 ≤ d) && decide (d ≤ 10))
    let badPeriod : Bool := decide (s.snap.period.toNat = 0)
    let badKeylen : Bool := decide (k < s.snap.keylen.toNat)
    let badAlg (a : AlgTag) : Bool := decide (tagOfAlg a = 3)
    let ends (i : Instr) (digits period alg keylen : Bool) : Prop := ∃ t, exec i s = .next t ∧
      (readReg t .status).getLsbD 8 = digits ∧ (readReg t .status).getLsbD 9 = period ∧
      (readReg t .status).getLsbD 10 = false ∧ (readReg t .status).getLsbD 11 = alg ∧
      (readReg t .status).getLsbD 12 = keylen ∧ (readReg t .status).getLsbD 13 = false
    ends .nop false false false false ∧ ends .enc false false false false ∧
    (∀ a, ends (.mac a) false false (badAlg a) badKeylen) ∧
    (∀ a d, ends (.trunc a d) (badDigits d) false (badAlg a) false) ∧
    (∀ d, ends (.fmt d) (badDigits d) false false false) ∧
    (∀ a d, ends (.hotp a d) (badDigits d) false (badAlg a) badKeylen) ∧
    ends .tstep false badPeriod false false ∧
    (∀ a d, ends (.totp a d) (badDigits d) badPeriod (badAlg a) badKeylen)

/-- R108: after every completion step, illegal words included, ERRCODE is the code of the first failed
check in the order CMD, DIGITS, PERIOD, COUNTER, ALG, KEYLEN, and 0 if none failed. -/
def Obligations.ErrcodeIsTheFirstFailedCheck : Prop :=
  ∀ s : State, EngineMoves s → ∃ t, step s = .next t ∧
    let w := readReg t .status
    (w.extractLsb' 4 4).toNat =
      if w.getLsbD 13 then 6 else if w.getLsbD 8 then 1 else if w.getLsbD 9 then 2
      else if w.getLsbD 10 then 3 else if w.getLsbD 11 then 4 else if w.getLsbD 12 then 5 else 0

/-- R78: a command that fails a check writes STATUS alone: no result, no digest, no MACCNT, no wipe; and the
same holds of every completion step that leaves an error code, an illegal word's included. -/
def Obligations.RejectedCommandWritesStatusAlone : Prop :=
  (∀ (i : Instr) (s : State),
    ((∃ d, digitsUsed i = some d ∧ ¬ (1 ≤ d ∧ d ≤ 10)) ∨ (usesPeriod i = true ∧ s.snap.period = 0) ∨
      algUsed i = some none ∨ (usesKey i = true ∧ s.cfg.keyMaxBytes < s.snap.keylen.toNat)) →
    ∃ t, exec i s = .next t ∧ t.phase = .idle ∧ t.done = true ∧ t.ovr = s.ovr ∧ t.errcode ≠ .none ∧
      OutsideKept s t ∧ KeyKept s t ∧ ∀ r, r ≠ .status → readReg t r = readReg s r) ∧
  ∀ s : State, EngineMoves s → ∃ t, step s = .next t ∧ ((readReg t .status).extractLsb' 4 4 ≠ 0 →
    OutsideKept s t ∧ KeyKept s t ∧ ∀ r, r ≠ .status → readReg t r = readReg s r)

/-- R44: a successful command leaves every register that has '-' in its column of R44's table as it was, and
the key bytes too unless it is a MAC, HOTP or TOTP. -/
def Obligations.SuccessfulCommandKeepsWhatItsColumnLeaves : Prop :=
  ∀ (i : Instr) (s : State), errCodeOf (checks i s.cfg.keyMaxBytes s.snap) = .none →
    ∃ t, exec i s = .next t ∧ Finished s t 0x2 ∧ (usesKey i = false → KeyKept s t) ∧
      ∀ r, writesReg i r = false → readReg t r = readReg s r

/-- R80: a completion step whose word has OP 2, 5 or 7 (MAC, HOTP, TOTP) and that leaves no error code wipes
the key; every other one leaves the key and KEYLEN as they are. -/
def Obligations.KeyIsWipedExactlyAfterItsUse : Prop :=
  ∀ s : State, EngineMoves s → ∃ t, step s = .next t ∧
    let op := s.snap.cmd.toNat % 16
    let code := (readReg t .status).extractLsb' 4 4
    (code = 0 → (op = 2 ∨ op = 5 ∨ op = 7) → KeyWiped t) ∧
    (code ≠ 0 ∨ ¬ (op = 2 ∨ op = 5 ∨ op = 7) → KeyKept s t ∧ t.keylen = s.keylen)

/-- R126: after a successful MAC, HOTP or TOTP the key is zero and KEYLEN is 0; the next command accepted
without a reload has the empty secret, and its key length raises no error. -/
def Obligations.NextCommandWithoutReloadHasTheEmptySecret : Prop :=
  ∀ (i : Instr) (s : State), usesKey i = true → errCodeOf (checks i s.cfg.keyMaxBytes s.snap) = .none →
    ∃ t, exec i s = .next t ∧ KeyWiped t ∧ ∀ w, secretOf (accept w t).snap = [] ∧
      ∀ j, ∃ u, exec j (accept w t) = .next u ∧ (readReg u .status).getLsbD 12 = false

/-- R41: MACCNT changes only by a completion step whose word has OP 2, 5 or 7 (MAC, HOTP, TOTP) and that
leaves no error code, which adds 1 modulo 2^32, and by reset, which sets it to 0. -/
def Obligations.MaccntCountsHmacs : Prop :=
  ∀ s t : State, step s = .next t →
    let op := s.snap.cmd.toNat % 16
    let code := (readReg t .status).extractLsb' 4 4
    (EngineMoves s → code = 0 → (op = 2 ∨ op = 5 ∨ op = 7) →
      t.maccnt.toNat = (s.maccnt.toNat + 1) % 2 ^ 32) ∧
    (EngineMoves s → code ≠ 0 ∨ ¬ (op = 2 ∨ op = 5 ∨ op = 7) → t.maccnt = s.maccnt) ∧
    (¬ EngineMoves s → (∀ rest, s.pending ≠ .reset :: rest) → t.maccnt = s.maccnt) ∧
    (¬ EngineMoves s → (∃ rest, s.pending = .reset :: rest) → t.maccnt = 0)

/-! ## The functions -/

/-- R84: `enc64(c)` has exactly 8 bytes, byte i is (c >> (8*(7-i))) & 0xFF, and no bit of c is lost. -/
def Obligations.EncodedCounterBytes : Prop :=
  ∀ c : BitVec 64, (enc64 c).length = 8 ∧
    (∀ i < 8, (byteAt (enc64 c) i).toNat = (c.toNat >>> (8 * (7 - i))) &&& 0xFF) ∧
    bytesVal (enc64 c) = c.toNat

/-- R49: a word of a buffer reads back as it was written, and so do its four bytes; every other byte and
word is as before. -/
def Obligations.BufferWordsArePackedBigEndian : Prop :=
  ∀ (m : Memory) (j : Nat) (v : Word), m.wf →
    (m.setWord j v).word j = v ∧
    ((m.setWord j v).read (4 * j)).toNat = v.toNat / 2 ^ 24 ∧
    ((m.setWord j v).read (4 * j + 1)).toNat = v.toNat / 2 ^ 16 % 256 ∧
    ((m.setWord j v).read (4 * j + 2)).toNat = v.toNat / 2 ^ 8 % 256 ∧
    ((m.setWord j v).read (4 * j + 3)).toNat = v.toNat % 256 ∧
    (∀ i, i / 4 ≠ j → (m.setWord j v).read i = m.read i) ∧
    ∀ k, k ≠ j → (m.setWord j v).word k = m.word k

/-- R88: a key longer than the block is hashed first, a key that fits is filled with zeros, and the result
has L(alg) bytes. -/
def Obligations.HmacKeyIsHashedOrZeroFilled : Prop :=
  ∀ (a : Alg) (K m : List Byte),
    (blockLen a < K.length → hmac a K m = hmac a (hash a K) m) ∧
    (∀ n, K.length + n ≤ blockLen a → hmac a (K ++ zeros n) m = hmac a K m) ∧
    (hmac a K m).length = digestLen a

/-- R90: the offset is at most 15, the four bytes lie inside the digest, and the value is the 31 low bits of
those four bytes, most significant first. -/
def Obligations.TruncationStaysInsideTheDigest : Prop :=
  ∀ H : List Byte, 20 ≤ H.length →
    (trunc H).1 ≤ 15 ∧ (trunc H).1 + 3 ≤ 18 ∧ (trunc H).1 + 3 < H.length ∧ (trunc H).2 ≤ 0x7FFFFFFF ∧
    (trunc H).1 = offsetOf H.length H ∧ (trunc H).2 = binaryOf H.length H

/-- R92: the properties of `fmt(v, d)`. -/
def Obligations.FormatterProperties : Prop :=
  ∀ v d : Nat, v < 2 ^ 31 → 1 ≤ d → d ≤ 10 →
    (fmt v d).1 < 10 ^ d ∧ (fmt v d).1 ≤ v ∧ (fmt v d).2.length = d ∧
    ((∀ c ∈ (fmt v d).2, c = 0x30#8) ↔ (fmt v d).1 = 0) ∧
    (d = 10 → (fmt v d).1 = v) ∧ (d = 1 → (fmt v d).2 = [BitVec.ofNat 8 (0x30 + v % 10)])

/-- R91, R16: the characters of a token are ASCII digits, and they denote the code in decimal. -/
def Obligations.TokenDenotesTheCode : Prop :=
  ∀ v d : Nat, (∀ c ∈ (fmt v d).2, 0x30 ≤ c.toNat ∧ c.toNat ≤ 0x39) ∧
    (fmt v d).2.foldl (fun n c => 10 * n + (c.toNat - 0x30)) 0 = v % 10 ^ d

/-- R100: nested floor divisions compose, the result fits the counter, and it does not decrease. -/
def Obligations.TimeStepProperties : Prop :=
  ∀ t p : Nat, 1 ≤ p →
    tstep t p = t / (1000 * p) ∧
    (t < 2 ^ 64 → tstep t p ≤ 18446744073709551 ∧ tstep t p < 2 ^ 55) ∧
    ∀ t', t ≤ t' → tstep t p ≤ tstep t' p

/-! ## Compositions -/

/-- R94: HOTP is MAC followed by TRUNC of the digest that MAC left: every register a host can read is the
same afterwards, but CMD. -/
def Obligations.HotpIsMacThenTrunc : Prop :=
  ∀ (a : Alg) (d : Nat) (s : State), 1 ≤ d → d ≤ 10 → s.snap.keylen.toNat ≤ s.cfg.keyMaxBytes →
    ∃ h m t, exec (.hotp (some a) d) s = .next h ∧ exec (.mac (some a)) s = .next m ∧
      exec (.trunc (some a) d) (accept (encode (.trunc (some a) d)) m) = .next t ∧
      KeyWiped h ∧ KeyWiped t ∧ ∀ r, r ≠ .cmd → readReg t r = readReg h r

/-- R101: TOTP is HOTP with the time step as its counter: every register but TSTEP is the same. -/
def Obligations.TotpIsHotpOfTheTimeStep : Prop :=
  ∀ (a : Alg) (d : Nat) (s : State), 1 ≤ d → d ≤ 10 → s.snap.period ≠ 0 →
    s.snap.keylen.toNat ≤ s.cfg.keyMaxBytes →
    let n := s.snap.ts.toNat / 1000 / s.snap.period.toNat
    ∃ h t, exec (.hotp (some a) d) { s with snap := { s.snap with ctr := BitVec.ofNat 64 n } } = .next h ∧
      exec (.totp (some a) d) s = .next t ∧ KeyWiped h ∧ KeyWiped t ∧
      ∀ r, r ≠ .tstepHi → r ≠ .tstepLo → readReg t r = readReg h r

/-! ## The register window (10_state.md, 20_memory.md) -/

/-- R22: every register of the map lies at its offset, and at every other offset there is none. -/
def Obligations.RegisterMap : Prop :=
  ∀ (k off : Nat) (r : Reg), regAt k off = some r ↔ mappedReg k r ∧ r.off = off

/-- R47, R51, R107: a single access inside the window takes effect exactly if it is 32 bits wide, aligned and
mapped; every other one, and every burst whatever its beats, is a BusError. -/
def Obligations.OtherAccessesAreBusErrors : Prop :=
  ∀ (s : State) (off size beats : Nat) (v : Word) (vs : List Word) (rest : List BusEvent), HostMoves s →
    off < 0x200 →
    ((s.pending = .read (s.cfg.otpeBase + off) size :: rest ∨
        s.pending = .write (s.cfg.otpeBase + off) size v :: rest) →
      (size = 4 ∧ mappedOffset s.cfg.keyMaxBytes off → ∃ t, step s = .next t) ∧
      (¬ (size = 4 ∧ mappedOffset s.cfg.keyMaxBytes off) → step s = .fault (.busError off))) ∧
    ((s.pending = .readBurst (s.cfg.otpeBase + off) size beats :: rest ∨
        s.pending = .writeBurst (s.cfg.otpeBase + off) size vs :: rest) → step s = .fault (.busError off))

/-- R54 and I5: an access outside the window, single or a burst, is not an access to the block. That the run
stops there is the model's reading (log entry 11). -/
def Obligations.AccessOutsideTheWindowFaults : Prop :=
  ∀ (s : State) (addr size beats : Nat) (v : Word) (vs : List Word) (rest : List BusEvent), HostMoves s →
    (addr < s.cfg.otpeBase ∨ s.cfg.otpeBase + 0x200 ≤ addr) →
    (s.pending = .read addr size :: rest ∨ s.pending = .write addr size v :: rest ∨
      s.pending = .readBurst addr size beats :: rest ∨ s.pending = .writeBurst addr size vs :: rest) →
    step s = .fault (.outsideWindow addr)

/-- R23, R47, R53: a read returns the register's value and has no side effect on the block. `reads`, `pending`
and `delay` are the model's own (log entries 2, 3 and 5). -/
def Obligations.ReadsReturnTheValueWithoutSideEffect : Prop :=
  ∀ (s : State) (r : Reg) (rest : List BusEvent), HostMoves s → mappedReg s.cfg.keyMaxBytes r →
    s.pending = .read (s.cfg.otpeBase + r.off) 4 :: rest →
    step s = .next { s with reads := readReg s r :: s.reads, pending := rest, delay := s.delay - 1 }

/-- R26, R29 to R33, R42: a host write to an RW register stores the bits the register has; a read then
returns them, with reserved bits 0; every other register is as before. -/
def Obligations.WritableRegistersStoreTheirBits : Prop :=
  ∀ (s : State) (r : Reg) (v mask : Word) (rest : List BusEvent), Inv s → HostMoves s →
    storedBits r = some mask → s.pending = .write (s.cfg.otpeBase + r.off) 4 v :: rest →
    ∃ t, step s = .next t ∧ readReg t r = v &&& mask ∧ KeyKept s t ∧ t.phase = s.phase ∧ t.snap = s.snap ∧
      ∀ r', r' ≠ r → readReg t r' = readReg s r'

/-- R23: a host write to an RO register has no effect and raises no error. `pending` and `delay` are the
model's own (log entries 2 and 3). -/
def Obligations.ReadOnlyRegistersIgnoreWrites : Prop :=
  ∀ (s : State) (r : Reg) (v : Word) (rest : List BusEvent), HostMoves s → readOnlyReg r = true →
    s.pending = .write (s.cfg.otpeBase + r.off) 4 v :: rest →
    step s = .next { s with pending := rest, delay := s.delay - 1 }

/-- R27: writing 1 to DONE or OVR clears it, and a write to STATUS changes nothing else. -/
def Obligations.StatusWriteClearsDoneAndOvr : Prop :=
  ∀ (s : State) (v : Word) (rest : List BusEvent), HostMoves s →
    s.pending = .write (s.cfg.otpeBase + 0x00C) 4 v :: rest →
    ∃ t, step s = .next t ∧ readReg t .status = readReg s .status &&& ~~~(v &&& 0x6) ∧ KeyKept s t ∧
      t.phase = s.phase ∧ t.snap = s.snap ∧ ∀ r, r ≠ .status → readReg t r = readReg s r

/-- R43: a host write to KEYj sets its four bytes, most significant first, and changes nothing else. -/
def Obligations.KeyWriteSetsItsFourBytes : Prop :=
  ∀ (s : State) (j : Fin 64) (v : Word) (rest : List BusEvent), Inv s → HostMoves s →
    4 * j.val < s.cfg.keyMaxBytes → s.pending = .write (s.cfg.otpeBase + 0x100 + 4 * j.val) 4 v :: rest →
    ∃ t, step s = .next t ∧
      (t.key.read (4 * j.val)).toNat = v.toNat / 2 ^ 24 ∧
      (t.key.read (4 * j.val + 1)).toNat = v.toNat / 2 ^ 16 % 256 ∧
      (t.key.read (4 * j.val + 2)).toNat = v.toNat / 2 ^ 8 % 256 ∧
      (t.key.read (4 * j.val + 3)).toNat = v.toNat % 256 ∧
      (∀ i, i / 4 ≠ j.val → t.key.read i = s.key.read i) ∧ t.phase = s.phase ∧ t.snap = s.snap ∧
      ∀ r, readReg t r = readReg s r

/-- R43, R113: no step of the host reveals the key: two states that differ in the key (and its copy in the
snapshot) alone give the host the same data and the same errors, and go on differing in it alone. -/
def Obligations.HostStepsDoNotRevealTheKey : Prop :=
  ∀ (s : State) (k k' : Memory), ¬ EngineMoves s →
    (∀ t, step s = .next t → ∃ l l', step (withKeys k k' s) = .next (withKeys l l' t)) ∧
    (∀ f, step s = .fault f → step (withKeys k k' s) = .fault f) ∧
    ∀ r, readReg (withKeys k k' s) r = readReg s r

/-- R24, R25: ID and CAP. -/
def Obligations.IdentificationRegisters : Prop :=
  ∀ s : State, s.cfg.wf →
    readReg s .id = 0x4F545001 ∧
    (readReg s .cap).toNat = s.cfg.keyMaxBytes + 10 * 2 ^ 12 + 2 ^ 16 + 2 ^ 17 + 2 ^ 18

/-- R72, R40: the four reads of `readtok` give the characters of OUTC below OUTLEN. -/
def Obligations.TokenIsReadFromTheOutRegisters : Prop :=
  ∀ s : State, s.outlen.toNat ≤ 12 →
    tokenOf (readReg s .outlen) (readReg s (.out 0)) (readReg s (.out 1)) (readReg s (.out 2))
      = s.outc.firstBytes s.outlen.toNat

/-- R72: `wait` reads STATUS, and goes on reading it until DONE = 1 (log entry 10). -/
def Obligations.WaitPollsUntilDone : Prop :=
  ∀ (s : State) (rest : List BusEvent), HostMoves s → s.pending = .poll :: rest →
    ∃ t, step s = .next t ∧ t.reads = readReg s .status :: s.reads ∧
      ((readReg s .status).getLsbD 1 = true → t.pending = rest) ∧
      ((readReg s .status).getLsbD 1 = false → t.pending = s.pending) ∧
      KeyKept s t ∧ ∀ r, readReg t r = readReg s r

/-! ## Status, interrupt and reset (60_exceptions.md, 70_reset_and_hazards.md) -/

/-- R112: IRQ is the level CTRL.IE and STATUS.DONE: every completion raises it where IE is set, and an
acceptance, a reset and writing 1 to DONE clear it. -/
def Obligations.InterruptFollowsDone : Prop :=
  (∀ s : State, irq s = ((readReg s .ctrl).getLsbD 0 && (readReg s .status).getLsbD 1)) ∧
  (∀ s : State, EngineMoves s → ∃ t, step s = .next t ∧ irq t = s.ie) ∧
  ∀ (s : State) (rest : List BusEvent) (w : Word), HostMoves s →
    (s.phase = .idle ∧ s.pending = .write (s.cfg.otpeBase + 0x010) 4 w :: rest ∨
      s.pending = .reset :: rest ∨
      s.pending = .write (s.cfg.otpeBase + 0x00C) 4 w :: rest ∧ w.getLsbD 1 = true ∨
      s.pending = .write (s.cfg.otpeBase + 0x008) 4 w :: rest ∧ w.getLsbD 0 = false) →
    ∃ t, step s = .next t ∧ irq t = false

/-- R45: DONE is set only by a completion, and OVR only by a CMD write while a command is in flight. -/
def Obligations.DoneAndOvrHaveOneSetter : Prop :=
  ∀ s t : State, step s = .next t →
    (t.done = true → s.done = true ∨ EngineMoves s) ∧
    (t.ovr = true → s.ovr = true ∨ (s.phase = .busy ∧ ∃ w rest,
      s.pending = .write (s.cfg.otpeBase + 0x010) 4 w :: rest))

/-- R34 to R41, R122: between completions the result registers keep their values, whatever the host does
short of reset. -/
def Obligations.ResultsChangeOnlyAtCompletion : Prop :=
  ∀ (s t : State), ¬ EngineMoves s → (∀ rest, s.pending ≠ .reset :: rest) → step s = .next t →
    ∀ r, readOnlyReg r = true → readReg t r = readReg s r

/-- R119: reset, in any phase, gives every register its reset value, clears the key, and abandons the
command in flight. -/
def Obligations.ResetClearsEverything : Prop :=
  ∀ (s : State) (rest : List BusEvent), s.cfg.wf → HostMoves s → s.pending = .reset :: rest →
    ∃ t, step s = .next t ∧ t.phase = .idle ∧ (∀ r, readReg t r = resetWord s.cfg.keyMaxBytes r) ∧
      KeyWiped t ∧ irq t = false ∧ t.pending = rest ∧ t.cfg = s.cfg

/-- R10, R129: a command is never in flight over more host steps than its latency: as long as it has not
completed, each step of the machine uses one of them up. `delay` is the model's own (log entry 2). -/
def Obligations.CommandsCompleteWithinTheirLatency : Prop :=
  ∀ (s : State) (n : Nat),
    (∀ k ≤ n, ∃ t, core.run k s = .next t ∧ t.phase = .busy) → n ≤ s.delay

/-- R7, R8: no step changes the parameters of the implementation. -/
def Obligations.ParametersNeverChange : Prop :=
  ∀ s t : State, step s = .next t → t.cfg = s.cfg

/-! ## The invariant -/

/-- R119: the invariant holds right after reset. -/
def Obligations.InvariantHoldsAtReset : Prop := Inv State.reset

/-- Every step keeps the invariant: the parameters stay legal (R7), the buffers keep their lengths (R40,
R42, R43), a command in flight is the last one accepted with clear flags (R73), ERRCODE agrees with EF_*
(R108), EF_COUNTER stays 0 (R106), CODE and OUTC stay one token (R92), TSTEP stays in range (R100). -/
def Obligations.EveryStepKeepsTheInvariant : Prop :=
  ∀ s t : State, Inv s → step s = .next t → Inv t
end

