-- ==== Sys2Proof/Laws/Decode.lean ====
section
/-! SUPPORT. The fields of a command word and what `decode` reads from them (30_encoding.md R62, R63, R67). -/

namespace Sys2Proof

/-- The fields of a word with clear reserved fields. -/
theorem fields_wordOfFields (d : BitVec 4) (a : BitVec 2) (op : BitVec 4) :
    res0Field (wordOfFields 0 d 0 a op) = 0 ∧ res1Field (wordOfFields 0 d 0 a op) = 0 ∧
    opField (wordOfFields 0 d 0 a op) = op ∧ algField (wordOfFields 0 d 0 a op) = a ∧
    digitsField (wordOfFields 0 d 0 a op) = d := by
  revert d a op; decide +kernel

/-- The fields of a word as numbers (R62). -/
theorem opField_toNat (w : Word) : (opField w).toNat = w.toNat % 16 := by
  simp [opField, BitVec.extractLsb'_toNat]

theorem algField_toNat (w : Word) : (algField w).toNat = w.toNat / 16 % 4 := by
  simp [algField, BitVec.extractLsb'_toNat, Nat.shiftRight_eq_div_pow]

theorem res0Field_toNat (w : Word) : (res0Field w).toNat = w.toNat / 64 % 4 := by
  simp [res0Field, BitVec.extractLsb'_toNat, Nat.shiftRight_eq_div_pow]

theorem digitsField_toNat (w : Word) : (digitsField w).toNat = w.toNat / 256 % 16 := by
  simp [digitsField, BitVec.extractLsb'_toNat, Nat.shiftRight_eq_div_pow]

theorem res1Field_toNat (w : Word) : (res1Field w).toNat = w.toNat / 4096 := by
  have := w.isLt
  simp [res1Field, BitVec.extractLsb'_toNat, Nat.shiftRight_eq_div_pow]
  omega

/-- A tag and the algorithm it names determine each other (R63). -/
@[simp] theorem algOfTag_tagOfAlg (a : AlgTag) : algOfTag (tagOfAlg a) = a := by
  rcases a with _ | a
  · rfl
  · cases a <;> rfl

@[simp] theorem tagOfAlg_algOfTag (t : BitVec 2) : tagOfAlg (algOfTag t) = t := by
  revert t; decide

/-- `decode` of a word given by its fields. -/
theorem decode_wordOfFields (d : BitVec 4) (a : BitVec 2) (op : BitVec 4) :
    decode (wordOfFields 0 d 0 a op) = decodeOp op a d := by
  obtain ⟨h1, h2, h3, h4, h5⟩ := fields_wordOfFields d a op
  rw [decode, h1, h2, h3, h4, h5, if_neg (by simp)]

/-- A word is made of its fields. -/
theorem wordOfFields_fields (w : Word) :
    wordOfFields (res1Field w) (digitsField w) (res0Field w) (algField w) (opField w) = w := by
  apply BitVec.eq_of_getLsbD_eq
  intro i hi
  simp only [wordOfFields, res1Field, digitsField, res0Field, algField, opField, BitVec.getLsbD_append,
    BitVec.getLsbD_extractLsb']
  by_cases h1 : i < 4
  · simp [h1]
  by_cases h2 : i < 6
  · simp [h1, show i - 4 < 2 by omega]
    congr 1
    omega
  by_cases h3 : i < 8
  · simp [h1, show ¬ i - 4 < 2 by omega, show i - 4 - 2 < 2 by omega]
    congr 1
    omega
  by_cases h4 : i < 12
  · simp [h1, show ¬ i - 4 < 2 by omega, show ¬ i - 4 - 2 < 2 by omega, show i - 4 - 2 - 2 < 4 by omega]
    congr 1
    omega
  · simp [h1, show ¬ i - 4 < 2 by omega, show ¬ i - 4 - 2 < 2 by omega, show ¬ i - 4 - 2 - 2 < 4 by omega,
      show i - 4 - 2 - 2 - 4 < 20 by omega]
    congr 1
    omega

/-- Everything that a successful `decode` says of a word (R67). -/
theorem decode_ok_inv {w : Word} {i : Instr} (h : decode w = .ok i) :
    res0Field w = 0 ∧ res1Field w = 0 ∧ opField w = opOf i ∧ i.wf = true ∧
      encodeWith (algField w) (digitsField w) i
        = wordOfFields 0 (digitsField w) 0 (algField w) (opField w) := by
  unfold decode at h
  split at h
  · cases h
  rename_i hr
  push Not at hr
  unfold decodeOp at h
  have hop : ∀ n : Nat, n < 16 → (opField w).toNat = n → opField w = BitVec.ofNat 4 n := fun n hn h => by
    apply BitVec.eq_of_toNat_eq; simp [h]; omega
  have hd := (digitsField w).isLt
  split at h <;> first | (cases h; done) | (
    obtain rfl := Except.ok.inj h
    rename_i ho
    refine ⟨hr.1, hr.2, by simpa [opOf] using hop _ (by omega) ho, by simp [Instr.wf, digitsEncodable]; try omega, ?_⟩
    simp [encodeWith, tagOfAlg_algOfTag, opOf, hop _ (by omega) ho])

/-- The OP number of the word that a command was decoded from. -/
theorem opOf_toNat_of_decode {w : Word} {i : Instr} (h : decode w = .ok i) : (opOf i).toNat = w.toNat % 16 := by
  rw [← opField_toNat, (decode_ok_inv h).2.2.1]

end Sys2Proof
end

