-- ==== Sys2Proof/Laws/Memory.lean ====
section
/-! SUPPORT. Byte buffers: reading after writing, the canonical form, and word packing
(20_memory.md R49). -/

namespace Sys2Proof.Machine

/-! ## Reading -/

@[simp] theorem Memory.read_nil (i : Nat) : Memory.read [] i = 0 := rfl

@[simp] theorem Memory.read_cleared (i : Nat) : Memory.read Memory.cleared i = 0 := rfl

theorem Memory.read_cons (a : Nat) (b : Byte) (m : Memory) (i : Nat) :
    Memory.read ((a, b) :: m) i = if a = i then b else Memory.read m i := rfl

/-- A byte below every listed index reads as an unlisted one. -/
theorem Memory.read_of_lt {m : Memory} {i : Nat} (h : ∀ c ∈ m, i < c.1) : m.read i = 0 := by
  induction m with
  | nil => rfl
  | cons c m ih =>
    have hc := h c (by simp)
    rw [Memory.read_cons, if_neg (by omega), ih (fun c hc => h c (by simp [hc]))]

/-- What a buffer reads as after one byte of it is written. -/
theorem Memory.read_write {m : Memory} (hm : m.wf) (i : Nat) (v : Byte) (k : Nat) :
    (m.write i v).read k = if k = i then v else m.read k := by
  induction m with
  | nil =>
    by_cases hv : v = Memory.unlisted
    · subst hv
      simp [Memory.write, Memory.unlisted]
    · simp only [Memory.write, if_neg hv, Memory.read_cons, Memory.read_nil, eq_comm]
  | cons c m ih =>
    obtain ⟨a, b⟩ := c
    have hlt : ∀ c ∈ m, a < c.1 := fun c hc => (List.pairwise_cons.mp hm.1).1 c hc
    have hm' : Memory.wf m := ⟨(List.pairwise_cons.mp hm.1).2, fun c hc => hm.2 c (by simp [hc])⟩
    have hz : ∀ j, j ≤ a → Memory.read m j = 0 := fun j hj =>
      Memory.read_of_lt fun c hc => lt_of_le_of_lt hj (hlt c hc)
    unfold Memory.write
    split
    · rename_i hia
      split
      · rename_i hv
        by_cases hk : k = i
        · subst hk
          rw [if_pos rfl, Memory.read_cons, if_neg (by omega), hz k (by omega), hv, Memory.unlisted]
        · rw [if_neg hk]
      · simp only [Memory.read_cons, eq_comm]
    · split
      · rename_i _ hia
        subst hia
        split
        · rename_i hv
          by_cases hk : k = i
          · subst hk
            rw [if_pos rfl, hz k (le_refl k), hv, Memory.unlisted]
          · rw [if_neg hk, Memory.read_cons, if_neg (fun h => hk h.symm)]
        · simp only [Memory.read_cons]
          by_cases hk : k = i
          · simp [hk]
          · rw [if_neg hk, if_neg (fun h => hk h.symm), if_neg (fun h => hk h.symm)]
      · rename_i h1 h2
        rw [Memory.read_cons, Memory.read_cons, ih hm']
        by_cases hak : a = k
        · subst hak
          rw [if_pos rfl, if_pos rfl, if_neg (by omega)]
        · rw [if_neg hak, if_neg hak]

/-! ## The canonical form is kept -/

/-- Every index listed after a write was listed before, or is the one written. -/
theorem Memory.mem_write {m : Memory} {i : Nat} {v : Byte} {c : Host.Cell} (h : c ∈ m.write i v) :
    c ∈ m ∨ (c = (i, v) ∧ v ≠ Memory.unlisted) := by
  induction m with
  | nil =>
    unfold Memory.write at h
    split at h
    · simp at h
    · rename_i hv
      exact .inr ⟨by simpa using h, hv⟩
  | cons d m ih =>
    obtain ⟨a, b⟩ := d
    unfold Memory.write at h
    split at h
    · split at h
      · exact .inl h
      · rename_i hv
        rcases List.mem_cons.mp h with h | h
        · exact .inr ⟨h, hv⟩
        · exact .inl h
    · split at h
      · split at h
        · exact .inl (List.mem_cons_of_mem _ h)
        · rename_i hv
          rcases List.mem_cons.mp h with h | h
          · exact .inr ⟨h, hv⟩
          · exact .inl (List.mem_cons_of_mem _ h)
      · rcases List.mem_cons.mp h with h | h
        · exact .inl (by rw [h]; exact List.mem_cons_self)
        · rcases ih h with h | h
          · exact .inl (List.mem_cons_of_mem _ h)
          · exact .inr h

/-- A write keeps the canonical form. -/
theorem Memory.wf_write {m : Memory} (hm : m.wf) (i : Nat) (v : Byte) : (m.write i v).wf := by
  refine ⟨?_, fun c hc => ?_⟩
  · induction m with
    | nil =>
      unfold Memory.write
      split <;> simp
    | cons c m ih =>
      obtain ⟨a, b⟩ := c
      have hlt := (List.pairwise_cons.mp hm.1).1
      have hm' : Memory.wf m := ⟨(List.pairwise_cons.mp hm.1).2, fun c hc => hm.2 c (by simp [hc])⟩
      unfold Memory.write
      split
      · rename_i hia
        split
        · exact hm.1
        · refine List.pairwise_cons.mpr ⟨fun c hc => ?_, hm.1⟩
          rcases List.mem_cons.mp hc with hc | hc
          · rw [hc]; exact hia
          · exact lt_trans hia (hlt c hc)
      · split
        · rename_i _ hia
          split
          · exact hm'.1
          · exact List.pairwise_cons.mpr ⟨fun c hc => by rw [hia]; exact hlt c hc, hm'.1⟩
        · rename_i h1 h2
          refine List.pairwise_cons.mpr ⟨fun c hc => ?_, ih hm'⟩
          rcases Memory.mem_write hc with hc | ⟨hc, _⟩
          · exact hlt c hc
          · rw [hc]; show a < i; omega
  · rcases Memory.mem_write hc with hc | ⟨hc, hv⟩
    · exact hm.2 c hc
    · rw [hc]; exact hv

/-- The empty buffer is canonical. -/
theorem Memory.wf_nil : Memory.wf [] := ⟨List.Pairwise.nil, by simp⟩

/-- The cleared buffer is canonical. -/
theorem Memory.wf_cleared : Memory.cleared.wf := Memory.wf_nil

/-- A write of several bytes keeps the canonical form. -/
theorem Memory.wf_writeBytes {m : Memory} (hm : m.wf) (i : Nat) (bs : List Byte) :
    (m.writeBytes i bs).wf := by
  induction bs generalizing m i with
  | nil => exact hm
  | cons b bs ih => exact ih (Memory.wf_write hm i b) (i + 1)

/-- A buffer made of bytes is canonical. -/
theorem Memory.wf_ofBytes (bs : List Byte) : (Memory.ofBytes bs).wf :=
  Memory.wf_writeBytes Memory.wf_cleared 0 bs

/-- A host write of a word keeps the canonical form. -/
theorem Memory.wf_setWord {m : Memory} (hm : m.wf) (j : Nat) (v : Word) : (m.setWord j v).wf :=
  Memory.wf_writeBytes hm (4 * j) (unpackBe v)

/-! ## The indices stay below the length of the buffer -/

/-- A write below `n` lists no index from `n` on. -/
theorem Memory.lt_of_mem_writeBytes {m : Memory} {n i : Nat} {bs : List Byte} (hm : ∀ c ∈ m, c.1 < n)
    (hi : i + bs.length ≤ n) : ∀ c ∈ m.writeBytes i bs, c.1 < n := by
  induction bs generalizing m i with
  | nil => exact hm
  | cons b bs ih =>
    refine ih (fun c hc => ?_) (by rw [List.length_cons] at hi; omega)
    rcases Memory.mem_write hc with hc | ⟨hc, _⟩
    · exact hm c hc
    · rw [hc]; show i < n; rw [List.length_cons] at hi; omega

/-- A buffer made of bytes lists no index beyond them. -/
theorem Memory.lt_of_mem_ofBytes (bs : List Byte) : ∀ c ∈ Memory.ofBytes bs, c.1 < bs.length :=
  Memory.lt_of_mem_writeBytes (by simp [Memory.cleared]) (by omega)

/-- A host write of a word that lies in the buffer lists no index beyond the buffer. -/
theorem Memory.lt_of_mem_setWord {m : Memory} {n j : Nat} (v : Word) (hm : ∀ c ∈ m, c.1 < n)
    (hj : 4 * j + 4 ≤ n) : ∀ c ∈ m.setWord j v, c.1 < n :=
  Memory.lt_of_mem_writeBytes hm (by simpa [unpackBe] using hj)

/-! ## Reading after writing several bytes -/

/-- What a buffer reads as after several bytes of it are written. -/
theorem Memory.read_writeBytes {m : Memory} (hm : m.wf) (i : Nat) (bs : List Byte) (k : Nat) :
    (m.writeBytes i bs).read k = if i ≤ k ∧ k < i + bs.length then byteAt bs (k - i) else m.read k := by
  induction bs generalizing m i with
  | nil =>
    rw [if_neg (by simp)]
    rfl
  | cons b bs ih =>
    rw [Memory.writeBytes, ih (Memory.wf_write hm i b) (i + 1), Memory.read_write hm]
    simp only [List.length_cons]
    by_cases hk : k = i
    · subst hk
      rw [if_neg (by omega), if_pos rfl, if_pos (by omega)]
      simp [byteAt]
    · by_cases h : i + 1 ≤ k ∧ k < i + 1 + bs.length
      · rw [if_pos h, if_pos (by omega)]
        obtain ⟨j, rfl⟩ : ∃ j, k = i + 1 + j := ⟨k - (i + 1), by omega⟩
        rw [show i + 1 + j - (i + 1) = j by omega, show i + 1 + j - i = j + 1 by omega]
        simp [byteAt]
      · rw [if_neg h, if_neg hk, if_neg (by omega)]

/-- A buffer made of bytes reads as them, and as 0x00 beyond. -/
@[simp] theorem Memory.read_ofBytes (bs : List Byte) (k : Nat) :
    (Memory.ofBytes bs).read k = byteAt bs k := by
  rw [Memory.ofBytes, Memory.read_writeBytes Memory.wf_cleared]
  by_cases h : k < bs.length
  · rw [if_pos (by omega)]; rfl
  · rw [if_neg (by omega), Memory.read_cleared]
    exact (List.getD_eq_default _ _ (not_lt.mp h)).symm

/-- Two canonical buffers that read alike are equal. -/
theorem Memory.eq_of_read_eq {m m' : Memory} (hm : m.wf) (hm' : m'.wf)
    (h : ∀ i, m.read i = m'.read i) : m = m' := by
  induction m generalizing m' with
  | nil =>
    cases m' with
    | nil => rfl
    | cons c m' =>
      obtain ⟨a, b⟩ := c
      have := h a
      rw [Memory.read_nil, Memory.read_cons, if_pos rfl] at this
      exact absurd this.symm (hm'.2 (a, b) (by simp))
  | cons c m ih =>
    obtain ⟨a, b⟩ := c
    have hb : b ≠ 0 := hm.2 (a, b) (by simp)
    have hlt := (List.pairwise_cons.mp hm.1).1
    cases m' with
    | nil =>
      have := h a
      rw [Memory.read_cons, if_pos rfl, Memory.read_nil] at this
      exact absurd this hb
    | cons c' m' =>
      obtain ⟨a', b'⟩ := c'
      have hb' : b' ≠ 0 := hm'.2 (a', b') (by simp)
      have hlt' := (List.pairwise_cons.mp hm'.1).1
      have haa : a = a' := by
        rcases lt_trichotomy a a' with hl | he | hl
        · have := h a
          rw [Memory.read_cons, if_pos rfl, Memory.read_of_lt (m := (a', b') :: m')] at this
          · exact absurd this hb
          · intro c hc
            rcases List.mem_cons.mp hc with hc | hc
            · rw [hc]; exact hl
            · exact lt_trans hl (hlt' c hc)
        · exact he
        · have := h a'
          rw [Memory.read_cons (a := a'), if_pos rfl, Memory.read_of_lt (m := (a, b) :: m)] at this
          · exact absurd this.symm hb'
          · intro c hc
            rcases List.mem_cons.mp hc with hc | hc
            · rw [hc]; exact hl
            · exact lt_trans hl (hlt c hc)
      subst haa
      have hbb : b = b' := by
        have := h a
        rwa [Memory.read_cons, if_pos rfl, Memory.read_cons, if_pos rfl] at this
      subst hbb
      refine congrArg _ (ih ⟨(List.pairwise_cons.mp hm.1).2, fun c hc => hm.2 c (by simp [hc])⟩
        ⟨(List.pairwise_cons.mp hm'.1).2, fun c hc => hm'.2 c (by simp [hc])⟩ fun i => ?_)
      by_cases hi : a = i
      · subst hi
        rw [Memory.read_of_lt hlt, Memory.read_of_lt hlt']
      · have := h i
        rwa [Memory.read_cons, if_neg hi, Memory.read_cons, if_neg hi] at this

/-! ## Byte sequences -/

theorem byteAt_append (s t : List Byte) (i : Nat) :
    byteAt (s ++ t) i = if i < s.length then byteAt s i else byteAt t (i - s.length) := by
  unfold byteAt
  split
  · rename_i h
    rw [List.getD_append _ _ _ _ h]
  · rename_i h
    rw [List.getD_append_right _ _ _ _ (not_lt.mp h)]

@[simp] theorem byteAt_zeros (n i : Nat) : byteAt (zeros n) i = 0 := by
  unfold byteAt zeros
  by_cases h : i < n
  · simp [h]
  · simp [h]

/-- A byte beyond the sequence. -/
theorem byteAt_of_length_le {s : List Byte} {i : Nat} (h : s.length ≤ i) : byteAt s i = 0 :=
  List.getD_eq_default _ _ h

@[simp] theorem length_zeros (n : Nat) : (zeros n).length = n := by simp [zeros]

@[simp] theorem length_rep (b : Byte) (n : Nat) : (rep b n).length = n := by simp [rep]

@[simp] theorem length_bytesBe (k n : Nat) : (bytesBe k n).length = k := by simp [bytesBe]

@[simp] theorem length_firstBytes (m : Memory) (n : Nat) : (m.firstBytes n).length = n := by
  simp [Memory.firstBytes]

@[simp] theorem length_unpackBe (v : Word) : (unpackBe v).length = 4 := rfl

theorem byteAt_firstBytes (m : Memory) (n i : Nat) :
    byteAt (m.firstBytes n) i = if i < n then m.read i else 0 := by
  unfold byteAt Memory.firstBytes
  by_cases h : i < n
  · rw [if_pos h, List.getD_eq_getElem _ _ (by simpa using h)]
    simp
  · rw [if_neg h, List.getD_eq_default _ _ (by simpa using not_lt.mp h)]

/-- Two byte sequences of one length that agree at every index are equal. -/
theorem eq_of_byteAt_eq {s t : List Byte} (hl : s.length = t.length)
    (h : ∀ i < s.length, byteAt s i = byteAt t i) : s = t := by
  refine List.ext_getElem hl fun i hs ht => ?_
  have := h i hs
  unfold byteAt at this
  rwa [List.getD_eq_getElem _ _ hs, List.getD_eq_getElem _ _ ht] at this

/-! ## Packing -/

/-- Each byte of a packed word. -/
theorem getLsbD_packBe (s : Nat → Byte) (j i : Nat) :
    (packBe s j).getLsbD i = if i < 8 then (s (4 * j + 3)).getLsbD i
      else if i < 16 then (s (4 * j + 2)).getLsbD (i - 8)
      else if i < 24 then (s (4 * j + 1)).getLsbD (i - 16)
      else (s (4 * j)).getLsbD (i - 24) := by
  unfold packBe
  rw [BitVec.getLsbD_append, BitVec.getLsbD_append, BitVec.getLsbD_append, Nat.sub_sub, Nat.sub_sub]
  by_cases h8 : i < 8
  · simp [h8]
  · by_cases h16 : i < 16
    · simp [h8, h16, show i - 8 < 8 by omega]
    · by_cases h24 : i < 24
      · simp [h8, h16, h24, show ¬ i - 8 < 8 by omega, show i - 16 < 8 by omega]
      · simp [h8, h16, h24, show ¬ i - 8 < 8 by omega, show ¬ i - 16 < 8 by omega]

/-- Each byte of a word, from its top byte on. -/
theorem getLsbD_byteAt_unpackBe (v : Word) (k i : Nat) (hk : k < 4) (hi : i < 8) :
    (byteAt (unpackBe v) k).getLsbD i = v.getLsbD (24 - 8 * k + i) := by
  unfold byteAt unpackBe
  interval_cases k <;> simp [hi]

/-- Packing the bytes of a word gives the word back. -/
theorem packBe_unpackBe (v : Word) : packBe (byteAt (unpackBe v)) 0 = v := by
  refine BitVec.eq_of_getLsbD_eq fun i hi => ?_
  rw [getLsbD_packBe]
  split
  · rw [getLsbD_byteAt_unpackBe _ _ _ (by omega) (by omega)]; congr 1; omega
  · split
    · rw [getLsbD_byteAt_unpackBe _ _ _ (by omega) (by omega)]; congr 1; omega
    · split
      · rw [getLsbD_byteAt_unpackBe _ _ _ (by omega) (by omega)]; congr 1; omega
      · rw [getLsbD_byteAt_unpackBe _ _ _ (by omega) (by omega)]; congr 1; omega

/-- Unpacking a packed word gives its four bytes back. -/
theorem unpackBe_packBe (s : Nat → Byte) (j : Nat) :
    unpackBe (packBe s j) = [s (4 * j), s (4 * j + 1), s (4 * j + 2), s (4 * j + 3)] := by
  refine eq_of_byteAt_eq (by simp) fun k hk => ?_
  rw [length_unpackBe] at hk
  refine BitVec.eq_of_getLsbD_eq fun i hi => ?_
  rw [getLsbD_byteAt_unpackBe _ _ _ hk hi, getLsbD_packBe]
  interval_cases k
  · rw [if_neg (by omega), if_neg (by omega), if_neg (by omega), show 24 - 8 * 0 + i - 24 = i by omega]; rfl
  · rw [if_neg (by omega), if_neg (by omega), if_pos (by omega), show 24 - 8 * 1 + i - 16 = i by omega]; rfl
  · rw [if_neg (by omega), if_pos (by omega), show 24 - 8 * 2 + i - 8 = i by omega]; rfl
  · rw [if_pos (by omega), show 24 - 8 * 3 + i = i by omega]; rfl

/-- Packing depends on the four bytes alone. -/
theorem packBe_congr {s t : Nat → Byte} {j : Nat} (h : ∀ i, i / 4 = j → s i = t i) :
    packBe s j = packBe t j := by
  unfold packBe
  rw [h (4 * j) (by omega), h (4 * j + 1) (by omega), h (4 * j + 2) (by omega), h (4 * j + 3) (by omega)]

/-- A byte of a buffer after a host write of a word. -/
theorem Memory.read_setWord {m : Memory} (hm : m.wf) (j : Nat) (v : Word) (i : Nat) :
    (m.setWord j v).read i = if i / 4 = j then byteAt (unpackBe v) (i % 4) else m.read i := by
  have hl := length_unpackBe v
  rw [Memory.setWord, Memory.read_writeBytes hm]
  by_cases h : i / 4 = j
  · rw [if_pos (by omega), if_pos h, show i - 4 * j = i % 4 by omega]
  · rw [if_neg (by omega), if_neg h]

/-- A word of a buffer after a host write of a word. -/
theorem Memory.word_setWord {m : Memory} (hm : m.wf) (j k : Nat) (v : Word) :
    (m.setWord j v).word k = if k = j then v else m.word k := by
  by_cases h : k = j
  · subst h
    rw [if_pos rfl]
    conv_rhs => rw [← packBe_unpackBe v]
    unfold Memory.word packBe
    simp only [Memory.read_setWord hm]
    rw [if_pos (by omega), if_pos (by omega), if_pos (by omega), if_pos (by omega),
      show 4 * k % 4 = 0 by omega, show (4 * k + 1) % 4 = 1 by omega, show (4 * k + 2) % 4 = 2 by omega,
      show (4 * k + 3) % 4 = 3 by omega]
  · rw [if_neg h]
    exact packBe_congr fun i hi => by rw [Memory.read_setWord hm, if_neg (by omega)]

end Sys2Proof.Machine
end

