-- ==== Sys2Proof/Laws/State.lean ====
section
/-! SUPPORT. The small lemmas of every update of the state: what each field is afterwards. -/

namespace Sys2Proof.Machine

/-! ### putMsg -/

@[simp] theorem putMsg_cfg (M : List Byte) (s : State) : (putMsg M s).cfg = s.cfg := rfl
@[simp] theorem putMsg_phase (M : List Byte) (s : State) : (putMsg M s).phase = s.phase := rfl
@[simp] theorem putMsg_snap (M : List Byte) (s : State) : (putMsg M s).snap = s.snap := rfl
@[simp] theorem putMsg_ie (M : List Byte) (s : State) : (putMsg M s).ie = s.ie := rfl
@[simp] theorem putMsg_done (M : List Byte) (s : State) : (putMsg M s).done = s.done := rfl
@[simp] theorem putMsg_ovr (M : List Byte) (s : State) : (putMsg M s).ovr = s.ovr := rfl
@[simp] theorem putMsg_errcode (M : List Byte) (s : State) : (putMsg M s).errcode = s.errcode := rfl
@[simp] theorem putMsg_ef (M : List Byte) (s : State) : (putMsg M s).ef = s.ef := rfl
@[simp] theorem putMsg_cmd (M : List Byte) (s : State) : (putMsg M s).cmd = s.cmd := rfl
@[simp] theorem putMsg_keylen (M : List Byte) (s : State) : (putMsg M s).keylen = s.keylen := rfl
@[simp] theorem putMsg_period (M : List Byte) (s : State) : (putMsg M s).period = s.period := rfl
@[simp] theorem putMsg_value (M : List Byte) (s : State) : (putMsg M s).value = s.value := rfl
@[simp] theorem putMsg_ctrHi (M : List Byte) (s : State) : (putMsg M s).ctrHi = s.ctrHi := rfl
@[simp] theorem putMsg_ctrLo (M : List Byte) (s : State) : (putMsg M s).ctrLo = s.ctrLo := rfl
@[simp] theorem putMsg_tsHi (M : List Byte) (s : State) : (putMsg M s).tsHi = s.tsHi := rfl
@[simp] theorem putMsg_tsLo (M : List Byte) (s : State) : (putMsg M s).tsLo = s.tsLo := rfl
@[simp] theorem putMsg_msgHi (M : List Byte) (s : State) : (putMsg M s).msgHi = packBe (byteAt M) 0 := rfl
@[simp] theorem putMsg_msgLo (M : List Byte) (s : State) : (putMsg M s).msgLo = packBe (byteAt M) 1 := rfl
@[simp] theorem putMsg_tstepHi (M : List Byte) (s : State) : (putMsg M s).tstepHi = s.tstepHi := rfl
@[simp] theorem putMsg_tstepLo (M : List Byte) (s : State) : (putMsg M s).tstepLo = s.tstepLo := rfl
@[simp] theorem putMsg_offset (M : List Byte) (s : State) : (putMsg M s).offset = s.offset := rfl
@[simp] theorem putMsg_binary (M : List Byte) (s : State) : (putMsg M s).binary = s.binary := rfl
@[simp] theorem putMsg_code (M : List Byte) (s : State) : (putMsg M s).code = s.code := rfl
@[simp] theorem putMsg_outlen (M : List Byte) (s : State) : (putMsg M s).outlen = s.outlen := rfl
@[simp] theorem putMsg_outc (M : List Byte) (s : State) : (putMsg M s).outc = s.outc := rfl
@[simp] theorem putMsg_maccnt (M : List Byte) (s : State) : (putMsg M s).maccnt = s.maccnt := rfl
@[simp] theorem putMsg_dig (M : List Byte) (s : State) : (putMsg M s).dig = s.dig := rfl
@[simp] theorem putMsg_key (M : List Byte) (s : State) : (putMsg M s).key = s.key := rfl
@[simp] theorem putMsg_pending (M : List Byte) (s : State) : (putMsg M s).pending = s.pending := rfl
@[simp] theorem putMsg_reads (M : List Byte) (s : State) : (putMsg M s).reads = s.reads := rfl
@[simp] theorem putMsg_delay (M : List Byte) (s : State) : (putMsg M s).delay = s.delay := rfl
@[simp] theorem putMsg_latencies (M : List Byte) (s : State) : (putMsg M s).latencies = s.latencies := rfl

/-! ### putDigest -/

@[simp] theorem putDigest_cfg (H : List Byte) (s : State) : (putDigest H s).cfg = s.cfg := rfl
@[simp] theorem putDigest_phase (H : List Byte) (s : State) : (putDigest H s).phase = s.phase := rfl
@[simp] theorem putDigest_snap (H : List Byte) (s : State) : (putDigest H s).snap = s.snap := rfl
@[simp] theorem putDigest_ie (H : List Byte) (s : State) : (putDigest H s).ie = s.ie := rfl
@[simp] theorem putDigest_done (H : List Byte) (s : State) : (putDigest H s).done = s.done := rfl
@[simp] theorem putDigest_ovr (H : List Byte) (s : State) : (putDigest H s).ovr = s.ovr := rfl
@[simp] theorem putDigest_errcode (H : List Byte) (s : State) : (putDigest H s).errcode = s.errcode := rfl
@[simp] theorem putDigest_ef (H : List Byte) (s : State) : (putDigest H s).ef = s.ef := rfl
@[simp] theorem putDigest_cmd (H : List Byte) (s : State) : (putDigest H s).cmd = s.cmd := rfl
@[simp] theorem putDigest_keylen (H : List Byte) (s : State) : (putDigest H s).keylen = s.keylen := rfl
@[simp] theorem putDigest_period (H : List Byte) (s : State) : (putDigest H s).period = s.period := rfl
@[simp] theorem putDigest_value (H : List Byte) (s : State) : (putDigest H s).value = s.value := rfl
@[simp] theorem putDigest_ctrHi (H : List Byte) (s : State) : (putDigest H s).ctrHi = s.ctrHi := rfl
@[simp] theorem putDigest_ctrLo (H : List Byte) (s : State) : (putDigest H s).ctrLo = s.ctrLo := rfl
@[simp] theorem putDigest_tsHi (H : List Byte) (s : State) : (putDigest H s).tsHi = s.tsHi := rfl
@[simp] theorem putDigest_tsLo (H : List Byte) (s : State) : (putDigest H s).tsLo = s.tsLo := rfl
@[simp] theorem putDigest_msgHi (H : List Byte) (s : State) : (putDigest H s).msgHi = s.msgHi := rfl
@[simp] theorem putDigest_msgLo (H : List Byte) (s : State) : (putDigest H s).msgLo = s.msgLo := rfl
@[simp] theorem putDigest_tstepHi (H : List Byte) (s : State) : (putDigest H s).tstepHi = s.tstepHi := rfl
@[simp] theorem putDigest_tstepLo (H : List Byte) (s : State) : (putDigest H s).tstepLo = s.tstepLo := rfl
@[simp] theorem putDigest_offset (H : List Byte) (s : State) : (putDigest H s).offset = s.offset := rfl
@[simp] theorem putDigest_binary (H : List Byte) (s : State) : (putDigest H s).binary = s.binary := rfl
@[simp] theorem putDigest_code (H : List Byte) (s : State) : (putDigest H s).code = s.code := rfl
@[simp] theorem putDigest_outlen (H : List Byte) (s : State) : (putDigest H s).outlen = s.outlen := rfl
@[simp] theorem putDigest_outc (H : List Byte) (s : State) : (putDigest H s).outc = s.outc := rfl
@[simp] theorem putDigest_maccnt (H : List Byte) (s : State) : (putDigest H s).maccnt = s.maccnt := rfl
@[simp] theorem putDigest_dig (H : List Byte) (s : State) : (putDigest H s).dig = Memory.ofBytes (H ++ zeros (64 - H.length)) := rfl
@[simp] theorem putDigest_key (H : List Byte) (s : State) : (putDigest H s).key = s.key := rfl
@[simp] theorem putDigest_pending (H : List Byte) (s : State) : (putDigest H s).pending = s.pending := rfl
@[simp] theorem putDigest_reads (H : List Byte) (s : State) : (putDigest H s).reads = s.reads := rfl
@[simp] theorem putDigest_delay (H : List Byte) (s : State) : (putDigest H s).delay = s.delay := rfl
@[simp] theorem putDigest_latencies (H : List Byte) (s : State) : (putDigest H s).latencies = s.latencies := rfl

/-! ### putTrunc -/

@[simp] theorem putTrunc_cfg (r : Nat × Nat) (s : State) : (putTrunc r s).cfg = s.cfg := rfl
@[simp] theorem putTrunc_phase (r : Nat × Nat) (s : State) : (putTrunc r s).phase = s.phase := rfl
@[simp] theorem putTrunc_snap (r : Nat × Nat) (s : State) : (putTrunc r s).snap = s.snap := rfl
@[simp] theorem putTrunc_ie (r : Nat × Nat) (s : State) : (putTrunc r s).ie = s.ie := rfl
@[simp] theorem putTrunc_done (r : Nat × Nat) (s : State) : (putTrunc r s).done = s.done := rfl
@[simp] theorem putTrunc_ovr (r : Nat × Nat) (s : State) : (putTrunc r s).ovr = s.ovr := rfl
@[simp] theorem putTrunc_errcode (r : Nat × Nat) (s : State) : (putTrunc r s).errcode = s.errcode := rfl
@[simp] theorem putTrunc_ef (r : Nat × Nat) (s : State) : (putTrunc r s).ef = s.ef := rfl
@[simp] theorem putTrunc_cmd (r : Nat × Nat) (s : State) : (putTrunc r s).cmd = s.cmd := rfl
@[simp] theorem putTrunc_keylen (r : Nat × Nat) (s : State) : (putTrunc r s).keylen = s.keylen := rfl
@[simp] theorem putTrunc_period (r : Nat × Nat) (s : State) : (putTrunc r s).period = s.period := rfl
@[simp] theorem putTrunc_value (r : Nat × Nat) (s : State) : (putTrunc r s).value = s.value := rfl
@[simp] theorem putTrunc_ctrHi (r : Nat × Nat) (s : State) : (putTrunc r s).ctrHi = s.ctrHi := rfl
@[simp] theorem putTrunc_ctrLo (r : Nat × Nat) (s : State) : (putTrunc r s).ctrLo = s.ctrLo := rfl
@[simp] theorem putTrunc_tsHi (r : Nat × Nat) (s : State) : (putTrunc r s).tsHi = s.tsHi := rfl
@[simp] theorem putTrunc_tsLo (r : Nat × Nat) (s : State) : (putTrunc r s).tsLo = s.tsLo := rfl
@[simp] theorem putTrunc_msgHi (r : Nat × Nat) (s : State) : (putTrunc r s).msgHi = s.msgHi := rfl
@[simp] theorem putTrunc_msgLo (r : Nat × Nat) (s : State) : (putTrunc r s).msgLo = s.msgLo := rfl
@[simp] theorem putTrunc_tstepHi (r : Nat × Nat) (s : State) : (putTrunc r s).tstepHi = s.tstepHi := rfl
@[simp] theorem putTrunc_tstepLo (r : Nat × Nat) (s : State) : (putTrunc r s).tstepLo = s.tstepLo := rfl
@[simp] theorem putTrunc_offset (r : Nat × Nat) (s : State) : (putTrunc r s).offset = BitVec.ofNat 4 r.1 := rfl
@[simp] theorem putTrunc_binary (r : Nat × Nat) (s : State) : (putTrunc r s).binary = BitVec.ofNat 31 r.2 := rfl
@[simp] theorem putTrunc_code (r : Nat × Nat) (s : State) : (putTrunc r s).code = s.code := rfl
@[simp] theorem putTrunc_outlen (r : Nat × Nat) (s : State) : (putTrunc r s).outlen = s.outlen := rfl
@[simp] theorem putTrunc_outc (r : Nat × Nat) (s : State) : (putTrunc r s).outc = s.outc := rfl
@[simp] theorem putTrunc_maccnt (r : Nat × Nat) (s : State) : (putTrunc r s).maccnt = s.maccnt := rfl
@[simp] theorem putTrunc_dig (r : Nat × Nat) (s : State) : (putTrunc r s).dig = s.dig := rfl
@[simp] theorem putTrunc_key (r : Nat × Nat) (s : State) : (putTrunc r s).key = s.key := rfl
@[simp] theorem putTrunc_pending (r : Nat × Nat) (s : State) : (putTrunc r s).pending = s.pending := rfl
@[simp] theorem putTrunc_reads (r : Nat × Nat) (s : State) : (putTrunc r s).reads = s.reads := rfl
@[simp] theorem putTrunc_delay (r : Nat × Nat) (s : State) : (putTrunc r s).delay = s.delay := rfl
@[simp] theorem putTrunc_latencies (r : Nat × Nat) (s : State) : (putTrunc r s).latencies = s.latencies := rfl

/-! ### putFmt -/

@[simp] theorem putFmt_cfg (f : Nat × List Byte) (d : Nat) (s : State) : (putFmt f d s).cfg = s.cfg := rfl
@[simp] theorem putFmt_phase (f : Nat × List Byte) (d : Nat) (s : State) : (putFmt f d s).phase = s.phase := rfl
@[simp] theorem putFmt_snap (f : Nat × List Byte) (d : Nat) (s : State) : (putFmt f d s).snap = s.snap := rfl
@[simp] theorem putFmt_ie (f : Nat × List Byte) (d : Nat) (s : State) : (putFmt f d s).ie = s.ie := rfl
@[simp] theorem putFmt_done (f : Nat × List Byte) (d : Nat) (s : State) : (putFmt f d s).done = s.done := rfl
@[simp] theorem putFmt_ovr (f : Nat × List Byte) (d : Nat) (s : State) : (putFmt f d s).ovr = s.ovr := rfl
@[simp] theorem putFmt_errcode (f : Nat × List Byte) (d : Nat) (s : State) : (putFmt f d s).errcode = s.errcode := rfl
@[simp] theorem putFmt_ef (f : Nat × List Byte) (d : Nat) (s : State) : (putFmt f d s).ef = s.ef := rfl
@[simp] theorem putFmt_cmd (f : Nat × List Byte) (d : Nat) (s : State) : (putFmt f d s).cmd = s.cmd := rfl
@[simp] theorem putFmt_keylen (f : Nat × List Byte) (d : Nat) (s : State) : (putFmt f d s).keylen = s.keylen := rfl
@[simp] theorem putFmt_period (f : Nat × List Byte) (d : Nat) (s : State) : (putFmt f d s).period = s.period := rfl
@[simp] theorem putFmt_value (f : Nat × List Byte) (d : Nat) (s : State) : (putFmt f d s).value = s.value := rfl
@[simp] theorem putFmt_ctrHi (f : Nat × List Byte) (d : Nat) (s : State) : (putFmt f d s).ctrHi = s.ctrHi := rfl
@[simp] theorem putFmt_ctrLo (f : Nat × List Byte) (d : Nat) (s : State) : (putFmt f d s).ctrLo = s.ctrLo := rfl
@[simp] theorem putFmt_tsHi (f : Nat × List Byte) (d : Nat) (s : State) : (putFmt f d s).tsHi = s.tsHi := rfl
@[simp] theorem putFmt_tsLo (f : Nat × List Byte) (d : Nat) (s : State) : (putFmt f d s).tsLo = s.tsLo := rfl
@[simp] theorem putFmt_msgHi (f : Nat × List Byte) (d : Nat) (s : State) : (putFmt f d s).msgHi = s.msgHi := rfl
@[simp] theorem putFmt_msgLo (f : Nat × List Byte) (d : Nat) (s : State) : (putFmt f d s).msgLo = s.msgLo := rfl
@[simp] theorem putFmt_tstepHi (f : Nat × List Byte) (d : Nat) (s : State) : (putFmt f d s).tstepHi = s.tstepHi := rfl
@[simp] theorem putFmt_tstepLo (f : Nat × List Byte) (d : Nat) (s : State) : (putFmt f d s).tstepLo = s.tstepLo := rfl
@[simp] theorem putFmt_offset (f : Nat × List Byte) (d : Nat) (s : State) : (putFmt f d s).offset = s.offset := rfl
@[simp] theorem putFmt_binary (f : Nat × List Byte) (d : Nat) (s : State) : (putFmt f d s).binary = s.binary := rfl
@[simp] theorem putFmt_code (f : Nat × List Byte) (d : Nat) (s : State) : (putFmt f d s).code = BitVec.ofNat 31 f.1 := rfl
@[simp] theorem putFmt_outlen (f : Nat × List Byte) (d : Nat) (s : State) : (putFmt f d s).outlen = BitVec.ofNat 4 d := rfl
@[simp] theorem putFmt_outc (f : Nat × List Byte) (d : Nat) (s : State) : (putFmt f d s).outc = Memory.ofBytes (outBytes f.2 d) := rfl
@[simp] theorem putFmt_maccnt (f : Nat × List Byte) (d : Nat) (s : State) : (putFmt f d s).maccnt = s.maccnt := rfl
@[simp] theorem putFmt_dig (f : Nat × List Byte) (d : Nat) (s : State) : (putFmt f d s).dig = s.dig := rfl
@[simp] theorem putFmt_key (f : Nat × List Byte) (d : Nat) (s : State) : (putFmt f d s).key = s.key := rfl
@[simp] theorem putFmt_pending (f : Nat × List Byte) (d : Nat) (s : State) : (putFmt f d s).pending = s.pending := rfl
@[simp] theorem putFmt_reads (f : Nat × List Byte) (d : Nat) (s : State) : (putFmt f d s).reads = s.reads := rfl
@[simp] theorem putFmt_delay (f : Nat × List Byte) (d : Nat) (s : State) : (putFmt f d s).delay = s.delay := rfl
@[simp] theorem putFmt_latencies (f : Nat × List Byte) (d : Nat) (s : State) : (putFmt f d s).latencies = s.latencies := rfl

/-! ### putTstep -/

@[simp] theorem putTstep_cfg (n : BitVec 64) (s : State) : (putTstep n s).cfg = s.cfg := rfl
@[simp] theorem putTstep_phase (n : BitVec 64) (s : State) : (putTstep n s).phase = s.phase := rfl
@[simp] theorem putTstep_snap (n : BitVec 64) (s : State) : (putTstep n s).snap = s.snap := rfl
@[simp] theorem putTstep_ie (n : BitVec 64) (s : State) : (putTstep n s).ie = s.ie := rfl
@[simp] theorem putTstep_done (n : BitVec 64) (s : State) : (putTstep n s).done = s.done := rfl
@[simp] theorem putTstep_ovr (n : BitVec 64) (s : State) : (putTstep n s).ovr = s.ovr := rfl
@[simp] theorem putTstep_errcode (n : BitVec 64) (s : State) : (putTstep n s).errcode = s.errcode := rfl
@[simp] theorem putTstep_ef (n : BitVec 64) (s : State) : (putTstep n s).ef = s.ef := rfl
@[simp] theorem putTstep_cmd (n : BitVec 64) (s : State) : (putTstep n s).cmd = s.cmd := rfl
@[simp] theorem putTstep_keylen (n : BitVec 64) (s : State) : (putTstep n s).keylen = s.keylen := rfl
@[simp] theorem putTstep_period (n : BitVec 64) (s : State) : (putTstep n s).period = s.period := rfl
@[simp] theorem putTstep_value (n : BitVec 64) (s : State) : (putTstep n s).value = s.value := rfl
@[simp] theorem putTstep_ctrHi (n : BitVec 64) (s : State) : (putTstep n s).ctrHi = s.ctrHi := rfl
@[simp] theorem putTstep_ctrLo (n : BitVec 64) (s : State) : (putTstep n s).ctrLo = s.ctrLo := rfl
@[simp] theorem putTstep_tsHi (n : BitVec 64) (s : State) : (putTstep n s).tsHi = s.tsHi := rfl
@[simp] theorem putTstep_tsLo (n : BitVec 64) (s : State) : (putTstep n s).tsLo = s.tsLo := rfl
@[simp] theorem putTstep_msgHi (n : BitVec 64) (s : State) : (putTstep n s).msgHi = s.msgHi := rfl
@[simp] theorem putTstep_msgLo (n : BitVec 64) (s : State) : (putTstep n s).msgLo = s.msgLo := rfl
@[simp] theorem putTstep_tstepHi (n : BitVec 64) (s : State) : (putTstep n s).tstepHi = n.extractLsb' 32 32 := rfl
@[simp] theorem putTstep_tstepLo (n : BitVec 64) (s : State) : (putTstep n s).tstepLo = n.extractLsb' 0 32 := rfl
@[simp] theorem putTstep_offset (n : BitVec 64) (s : State) : (putTstep n s).offset = s.offset := rfl
@[simp] theorem putTstep_binary (n : BitVec 64) (s : State) : (putTstep n s).binary = s.binary := rfl
@[simp] theorem putTstep_code (n : BitVec 64) (s : State) : (putTstep n s).code = s.code := rfl
@[simp] theorem putTstep_outlen (n : BitVec 64) (s : State) : (putTstep n s).outlen = s.outlen := rfl
@[simp] theorem putTstep_outc (n : BitVec 64) (s : State) : (putTstep n s).outc = s.outc := rfl
@[simp] theorem putTstep_maccnt (n : BitVec 64) (s : State) : (putTstep n s).maccnt = s.maccnt := rfl
@[simp] theorem putTstep_dig (n : BitVec 64) (s : State) : (putTstep n s).dig = s.dig := rfl
@[simp] theorem putTstep_key (n : BitVec 64) (s : State) : (putTstep n s).key = s.key := rfl
@[simp] theorem putTstep_pending (n : BitVec 64) (s : State) : (putTstep n s).pending = s.pending := rfl
@[simp] theorem putTstep_reads (n : BitVec 64) (s : State) : (putTstep n s).reads = s.reads := rfl
@[simp] theorem putTstep_delay (n : BitVec 64) (s : State) : (putTstep n s).delay = s.delay := rfl
@[simp] theorem putTstep_latencies (n : BitVec 64) (s : State) : (putTstep n s).latencies = s.latencies := rfl

/-! ### countMac -/

@[simp] theorem countMac_cfg (s : State) : (countMac s).cfg = s.cfg := rfl
@[simp] theorem countMac_phase (s : State) : (countMac s).phase = s.phase := rfl
@[simp] theorem countMac_snap (s : State) : (countMac s).snap = s.snap := rfl
@[simp] theorem countMac_ie (s : State) : (countMac s).ie = s.ie := rfl
@[simp] theorem countMac_done (s : State) : (countMac s).done = s.done := rfl
@[simp] theorem countMac_ovr (s : State) : (countMac s).ovr = s.ovr := rfl
@[simp] theorem countMac_errcode (s : State) : (countMac s).errcode = s.errcode := rfl
@[simp] theorem countMac_ef (s : State) : (countMac s).ef = s.ef := rfl
@[simp] theorem countMac_cmd (s : State) : (countMac s).cmd = s.cmd := rfl
@[simp] theorem countMac_keylen (s : State) : (countMac s).keylen = s.keylen := rfl
@[simp] theorem countMac_period (s : State) : (countMac s).period = s.period := rfl
@[simp] theorem countMac_value (s : State) : (countMac s).value = s.value := rfl
@[simp] theorem countMac_ctrHi (s : State) : (countMac s).ctrHi = s.ctrHi := rfl
@[simp] theorem countMac_ctrLo (s : State) : (countMac s).ctrLo = s.ctrLo := rfl
@[simp] theorem countMac_tsHi (s : State) : (countMac s).tsHi = s.tsHi := rfl
@[simp] theorem countMac_tsLo (s : State) : (countMac s).tsLo = s.tsLo := rfl
@[simp] theorem countMac_msgHi (s : State) : (countMac s).msgHi = s.msgHi := rfl
@[simp] theorem countMac_msgLo (s : State) : (countMac s).msgLo = s.msgLo := rfl
@[simp] theorem countMac_tstepHi (s : State) : (countMac s).tstepHi = s.tstepHi := rfl
@[simp] theorem countMac_tstepLo (s : State) : (countMac s).tstepLo = s.tstepLo := rfl
@[simp] theorem countMac_offset (s : State) : (countMac s).offset = s.offset := rfl
@[simp] theorem countMac_binary (s : State) : (countMac s).binary = s.binary := rfl
@[simp] theorem countMac_code (s : State) : (countMac s).code = s.code := rfl
@[simp] theorem countMac_outlen (s : State) : (countMac s).outlen = s.outlen := rfl
@[simp] theorem countMac_outc (s : State) : (countMac s).outc = s.outc := rfl
@[simp] theorem countMac_maccnt (s : State) : (countMac s).maccnt = s.maccnt + 1 := rfl
@[simp] theorem countMac_dig (s : State) : (countMac s).dig = s.dig := rfl
@[simp] theorem countMac_key (s : State) : (countMac s).key = s.key := rfl
@[simp] theorem countMac_pending (s : State) : (countMac s).pending = s.pending := rfl
@[simp] theorem countMac_reads (s : State) : (countMac s).reads = s.reads := rfl
@[simp] theorem countMac_delay (s : State) : (countMac s).delay = s.delay := rfl
@[simp] theorem countMac_latencies (s : State) : (countMac s).latencies = s.latencies := rfl

/-! ### wipe -/

@[simp] theorem wipe_cfg (s : State) : (wipe s).cfg = s.cfg := rfl
@[simp] theorem wipe_phase (s : State) : (wipe s).phase = s.phase := rfl
@[simp] theorem wipe_snap (s : State) : (wipe s).snap = s.snap := rfl
@[simp] theorem wipe_ie (s : State) : (wipe s).ie = s.ie := rfl
@[simp] theorem wipe_done (s : State) : (wipe s).done = s.done := rfl
@[simp] theorem wipe_ovr (s : State) : (wipe s).ovr = s.ovr := rfl
@[simp] theorem wipe_errcode (s : State) : (wipe s).errcode = s.errcode := rfl
@[simp] theorem wipe_ef (s : State) : (wipe s).ef = s.ef := rfl
@[simp] theorem wipe_cmd (s : State) : (wipe s).cmd = s.cmd := rfl
@[simp] theorem wipe_keylen (s : State) : (wipe s).keylen = 0 := rfl
@[simp] theorem wipe_period (s : State) : (wipe s).period = s.period := rfl
@[simp] theorem wipe_value (s : State) : (wipe s).value = s.value := rfl
@[simp] theorem wipe_ctrHi (s : State) : (wipe s).ctrHi = s.ctrHi := rfl
@[simp] theorem wipe_ctrLo (s : State) : (wipe s).ctrLo = s.ctrLo := rfl
@[simp] theorem wipe_tsHi (s : State) : (wipe s).tsHi = s.tsHi := rfl
@[simp] theorem wipe_tsLo (s : State) : (wipe s).tsLo = s.tsLo := rfl
@[simp] theorem wipe_msgHi (s : State) : (wipe s).msgHi = s.msgHi := rfl
@[simp] theorem wipe_msgLo (s : State) : (wipe s).msgLo = s.msgLo := rfl
@[simp] theorem wipe_tstepHi (s : State) : (wipe s).tstepHi = s.tstepHi := rfl
@[simp] theorem wipe_tstepLo (s : State) : (wipe s).tstepLo = s.tstepLo := rfl
@[simp] theorem wipe_offset (s : State) : (wipe s).offset = s.offset := rfl
@[simp] theorem wipe_binary (s : State) : (wipe s).binary = s.binary := rfl
@[simp] theorem wipe_code (s : State) : (wipe s).code = s.code := rfl
@[simp] theorem wipe_outlen (s : State) : (wipe s).outlen = s.outlen := rfl
@[simp] theorem wipe_outc (s : State) : (wipe s).outc = s.outc := rfl
@[simp] theorem wipe_maccnt (s : State) : (wipe s).maccnt = s.maccnt := rfl
@[simp] theorem wipe_dig (s : State) : (wipe s).dig = s.dig := rfl
@[simp] theorem wipe_key (s : State) : (wipe s).key = Memory.cleared := rfl
@[simp] theorem wipe_pending (s : State) : (wipe s).pending = s.pending := rfl
@[simp] theorem wipe_reads (s : State) : (wipe s).reads = s.reads := rfl
@[simp] theorem wipe_delay (s : State) : (wipe s).delay = s.delay := rfl
@[simp] theorem wipe_latencies (s : State) : (wipe s).latencies = s.latencies := rfl

/-! ### complete -/

@[simp] theorem complete_cfg (e : ErrCode) (F : ErrFlags) (s : State) : (complete e F s).cfg = s.cfg := rfl
@[simp] theorem complete_phase (e : ErrCode) (F : ErrFlags) (s : State) : (complete e F s).phase = .idle := rfl
@[simp] theorem complete_snap (e : ErrCode) (F : ErrFlags) (s : State) : (complete e F s).snap = Snapshot.discarded := rfl
@[simp] theorem complete_ie (e : ErrCode) (F : ErrFlags) (s : State) : (complete e F s).ie = s.ie := rfl
@[simp] theorem complete_done (e : ErrCode) (F : ErrFlags) (s : State) : (complete e F s).done = true := rfl
@[simp] theorem complete_ovr (e : ErrCode) (F : ErrFlags) (s : State) : (complete e F s).ovr = s.ovr := rfl
@[simp] theorem complete_errcode (e : ErrCode) (F : ErrFlags) (s : State) : (complete e F s).errcode = e := rfl
@[simp] theorem complete_ef (e : ErrCode) (F : ErrFlags) (s : State) : (complete e F s).ef = F := rfl
@[simp] theorem complete_cmd (e : ErrCode) (F : ErrFlags) (s : State) : (complete e F s).cmd = s.cmd := rfl
@[simp] theorem complete_keylen (e : ErrCode) (F : ErrFlags) (s : State) : (complete e F s).keylen = s.keylen := rfl
@[simp] theorem complete_period (e : ErrCode) (F : ErrFlags) (s : State) : (complete e F s).period = s.period := rfl
@[simp] theorem complete_value (e : ErrCode) (F : ErrFlags) (s : State) : (complete e F s).value = s.value := rfl
@[simp] theorem complete_ctrHi (e : ErrCode) (F : ErrFlags) (s : State) : (complete e F s).ctrHi = s.ctrHi := rfl
@[simp] theorem complete_ctrLo (e : ErrCode) (F : ErrFlags) (s : State) : (complete e F s).ctrLo = s.ctrLo := rfl
@[simp] theorem complete_tsHi (e : ErrCode) (F : ErrFlags) (s : State) : (complete e F s).tsHi = s.tsHi := rfl
@[simp] theorem complete_tsLo (e : ErrCode) (F : ErrFlags) (s : State) : (complete e F s).tsLo = s.tsLo := rfl
@[simp] theorem complete_msgHi (e : ErrCode) (F : ErrFlags) (s : State) : (complete e F s).msgHi = s.msgHi := rfl
@[simp] theorem complete_msgLo (e : ErrCode) (F : ErrFlags) (s : State) : (complete e F s).msgLo = s.msgLo := rfl
@[simp] theorem complete_tstepHi (e : ErrCode) (F : ErrFlags) (s : State) : (complete e F s).tstepHi = s.tstepHi := rfl
@[simp] theorem complete_tstepLo (e : ErrCode) (F : ErrFlags) (s : State) : (complete e F s).tstepLo = s.tstepLo := rfl
@[simp] theorem complete_offset (e : ErrCode) (F : ErrFlags) (s : State) : (complete e F s).offset = s.offset := rfl
@[simp] theorem complete_binary (e : ErrCode) (F : ErrFlags) (s : State) : (complete e F s).binary = s.binary := rfl
@[simp] theorem complete_code (e : ErrCode) (F : ErrFlags) (s : State) : (complete e F s).code = s.code := rfl
@[simp] theorem complete_outlen (e : ErrCode) (F : ErrFlags) (s : State) : (complete e F s).outlen = s.outlen := rfl
@[simp] theorem complete_outc (e : ErrCode) (F : ErrFlags) (s : State) : (complete e F s).outc = s.outc := rfl
@[simp] theorem complete_maccnt (e : ErrCode) (F : ErrFlags) (s : State) : (complete e F s).maccnt = s.maccnt := rfl
@[simp] theorem complete_dig (e : ErrCode) (F : ErrFlags) (s : State) : (complete e F s).dig = s.dig := rfl
@[simp] theorem complete_key (e : ErrCode) (F : ErrFlags) (s : State) : (complete e F s).key = s.key := rfl
@[simp] theorem complete_pending (e : ErrCode) (F : ErrFlags) (s : State) : (complete e F s).pending = s.pending := rfl
@[simp] theorem complete_reads (e : ErrCode) (F : ErrFlags) (s : State) : (complete e F s).reads = s.reads := rfl
@[simp] theorem complete_delay (e : ErrCode) (F : ErrFlags) (s : State) : (complete e F s).delay = 0 := rfl
@[simp] theorem complete_latencies (e : ErrCode) (F : ErrFlags) (s : State) : (complete e F s).latencies = s.latencies := rfl

/-! ### accept -/

@[simp] theorem accept_cfg (w : Word) (s : State) : (accept w s).cfg = s.cfg := rfl
@[simp] theorem accept_phase (w : Word) (s : State) : (accept w s).phase = .busy := rfl
@[simp] theorem accept_snap (w : Word) (s : State) : (accept w s).snap = snapshot w s := rfl
@[simp] theorem accept_ie (w : Word) (s : State) : (accept w s).ie = s.ie := rfl
@[simp] theorem accept_done (w : Word) (s : State) : (accept w s).done = false := rfl
@[simp] theorem accept_ovr (w : Word) (s : State) : (accept w s).ovr = s.ovr := rfl
@[simp] theorem accept_errcode (w : Word) (s : State) : (accept w s).errcode = .none := rfl
@[simp] theorem accept_ef (w : Word) (s : State) : (accept w s).ef = {} := rfl
@[simp] theorem accept_cmd (w : Word) (s : State) : (accept w s).cmd = w := rfl
@[simp] theorem accept_keylen (w : Word) (s : State) : (accept w s).keylen = s.keylen := rfl
@[simp] theorem accept_period (w : Word) (s : State) : (accept w s).period = s.period := rfl
@[simp] theorem accept_value (w : Word) (s : State) : (accept w s).value = s.value := rfl
@[simp] theorem accept_ctrHi (w : Word) (s : State) : (accept w s).ctrHi = s.ctrHi := rfl
@[simp] theorem accept_ctrLo (w : Word) (s : State) : (accept w s).ctrLo = s.ctrLo := rfl
@[simp] theorem accept_tsHi (w : Word) (s : State) : (accept w s).tsHi = s.tsHi := rfl
@[simp] theorem accept_tsLo (w : Word) (s : State) : (accept w s).tsLo = s.tsLo := rfl
@[simp] theorem accept_msgHi (w : Word) (s : State) : (accept w s).msgHi = s.msgHi := rfl
@[simp] theorem accept_msgLo (w : Word) (s : State) : (accept w s).msgLo = s.msgLo := rfl
@[simp] theorem accept_tstepHi (w : Word) (s : State) : (accept w s).tstepHi = s.tstepHi := rfl
@[simp] theorem accept_tstepLo (w : Word) (s : State) : (accept w s).tstepLo = s.tstepLo := rfl
@[simp] theorem accept_offset (w : Word) (s : State) : (accept w s).offset = s.offset := rfl
@[simp] theorem accept_binary (w : Word) (s : State) : (accept w s).binary = s.binary := rfl
@[simp] theorem accept_code (w : Word) (s : State) : (accept w s).code = s.code := rfl
@[simp] theorem accept_outlen (w : Word) (s : State) : (accept w s).outlen = s.outlen := rfl
@[simp] theorem accept_outc (w : Word) (s : State) : (accept w s).outc = s.outc := rfl
@[simp] theorem accept_maccnt (w : Word) (s : State) : (accept w s).maccnt = s.maccnt := rfl
@[simp] theorem accept_dig (w : Word) (s : State) : (accept w s).dig = s.dig := rfl
@[simp] theorem accept_key (w : Word) (s : State) : (accept w s).key = s.key := rfl
@[simp] theorem accept_pending (w : Word) (s : State) : (accept w s).pending = s.pending := rfl
@[simp] theorem accept_reads (w : Word) (s : State) : (accept w s).reads = s.reads := rfl
@[simp] theorem accept_delay (w : Word) (s : State) : (accept w s).delay = s.delay := rfl
@[simp] theorem accept_latencies (w : Word) (s : State) : (accept w s).latencies = s.latencies := rfl

/-! ### dropCommand -/

@[simp] theorem dropCommand_cfg (s : State) : (dropCommand s).cfg = s.cfg := rfl
@[simp] theorem dropCommand_phase (s : State) : (dropCommand s).phase = s.phase := rfl
@[simp] theorem dropCommand_snap (s : State) : (dropCommand s).snap = s.snap := rfl
@[simp] theorem dropCommand_ie (s : State) : (dropCommand s).ie = s.ie := rfl
@[simp] theorem dropCommand_done (s : State) : (dropCommand s).done = s.done := rfl
@[simp] theorem dropCommand_ovr (s : State) : (dropCommand s).ovr = true := rfl
@[simp] theorem dropCommand_errcode (s : State) : (dropCommand s).errcode = s.errcode := rfl
@[simp] theorem dropCommand_ef (s : State) : (dropCommand s).ef = s.ef := rfl
@[simp] theorem dropCommand_cmd (s : State) : (dropCommand s).cmd = s.cmd := rfl
@[simp] theorem dropCommand_keylen (s : State) : (dropCommand s).keylen = s.keylen := rfl
@[simp] theorem dropCommand_period (s : State) : (dropCommand s).period = s.period := rfl
@[simp] theorem dropCommand_value (s : State) : (dropCommand s).value = s.value := rfl
@[simp] theorem dropCommand_ctrHi (s : State) : (dropCommand s).ctrHi = s.ctrHi := rfl
@[simp] theorem dropCommand_ctrLo (s : State) : (dropCommand s).ctrLo = s.ctrLo := rfl
@[simp] theorem dropCommand_tsHi (s : State) : (dropCommand s).tsHi = s.tsHi := rfl
@[simp] theorem dropCommand_tsLo (s : State) : (dropCommand s).tsLo = s.tsLo := rfl
@[simp] theorem dropCommand_msgHi (s : State) : (dropCommand s).msgHi = s.msgHi := rfl
@[simp] theorem dropCommand_msgLo (s : State) : (dropCommand s).msgLo = s.msgLo := rfl
@[simp] theorem dropCommand_tstepHi (s : State) : (dropCommand s).tstepHi = s.tstepHi := rfl
@[simp] theorem dropCommand_tstepLo (s : State) : (dropCommand s).tstepLo = s.tstepLo := rfl
@[simp] theorem dropCommand_offset (s : State) : (dropCommand s).offset = s.offset := rfl
@[simp] theorem dropCommand_binary (s : State) : (dropCommand s).binary = s.binary := rfl
@[simp] theorem dropCommand_code (s : State) : (dropCommand s).code = s.code := rfl
@[simp] theorem dropCommand_outlen (s : State) : (dropCommand s).outlen = s.outlen := rfl
@[simp] theorem dropCommand_outc (s : State) : (dropCommand s).outc = s.outc := rfl
@[simp] theorem dropCommand_maccnt (s : State) : (dropCommand s).maccnt = s.maccnt := rfl
@[simp] theorem dropCommand_dig (s : State) : (dropCommand s).dig = s.dig := rfl
@[simp] theorem dropCommand_key (s : State) : (dropCommand s).key = s.key := rfl
@[simp] theorem dropCommand_pending (s : State) : (dropCommand s).pending = s.pending := rfl
@[simp] theorem dropCommand_reads (s : State) : (dropCommand s).reads = s.reads := rfl
@[simp] theorem dropCommand_delay (s : State) : (dropCommand s).delay = s.delay := rfl
@[simp] theorem dropCommand_latencies (s : State) : (dropCommand s).latencies = s.latencies := rfl

/-! ### startDelay -/

@[simp] theorem startDelay_cfg (s : State) : (startDelay s).cfg = s.cfg := rfl
@[simp] theorem startDelay_phase (s : State) : (startDelay s).phase = s.phase := rfl
@[simp] theorem startDelay_snap (s : State) : (startDelay s).snap = s.snap := rfl
@[simp] theorem startDelay_ie (s : State) : (startDelay s).ie = s.ie := rfl
@[simp] theorem startDelay_done (s : State) : (startDelay s).done = s.done := rfl
@[simp] theorem startDelay_ovr (s : State) : (startDelay s).ovr = s.ovr := rfl
@[simp] theorem startDelay_errcode (s : State) : (startDelay s).errcode = s.errcode := rfl
@[simp] theorem startDelay_ef (s : State) : (startDelay s).ef = s.ef := rfl
@[simp] theorem startDelay_cmd (s : State) : (startDelay s).cmd = s.cmd := rfl
@[simp] theorem startDelay_keylen (s : State) : (startDelay s).keylen = s.keylen := rfl
@[simp] theorem startDelay_period (s : State) : (startDelay s).period = s.period := rfl
@[simp] theorem startDelay_value (s : State) : (startDelay s).value = s.value := rfl
@[simp] theorem startDelay_ctrHi (s : State) : (startDelay s).ctrHi = s.ctrHi := rfl
@[simp] theorem startDelay_ctrLo (s : State) : (startDelay s).ctrLo = s.ctrLo := rfl
@[simp] theorem startDelay_tsHi (s : State) : (startDelay s).tsHi = s.tsHi := rfl
@[simp] theorem startDelay_tsLo (s : State) : (startDelay s).tsLo = s.tsLo := rfl
@[simp] theorem startDelay_msgHi (s : State) : (startDelay s).msgHi = s.msgHi := rfl
@[simp] theorem startDelay_msgLo (s : State) : (startDelay s).msgLo = s.msgLo := rfl
@[simp] theorem startDelay_tstepHi (s : State) : (startDelay s).tstepHi = s.tstepHi := rfl
@[simp] theorem startDelay_tstepLo (s : State) : (startDelay s).tstepLo = s.tstepLo := rfl
@[simp] theorem startDelay_offset (s : State) : (startDelay s).offset = s.offset := rfl
@[simp] theorem startDelay_binary (s : State) : (startDelay s).binary = s.binary := rfl
@[simp] theorem startDelay_code (s : State) : (startDelay s).code = s.code := rfl
@[simp] theorem startDelay_outlen (s : State) : (startDelay s).outlen = s.outlen := rfl
@[simp] theorem startDelay_outc (s : State) : (startDelay s).outc = s.outc := rfl
@[simp] theorem startDelay_maccnt (s : State) : (startDelay s).maccnt = s.maccnt := rfl
@[simp] theorem startDelay_dig (s : State) : (startDelay s).dig = s.dig := rfl
@[simp] theorem startDelay_key (s : State) : (startDelay s).key = s.key := rfl
@[simp] theorem startDelay_pending (s : State) : (startDelay s).pending = s.pending := rfl
@[simp] theorem startDelay_reads (s : State) : (startDelay s).reads = s.reads := rfl
@[simp] theorem startDelay_delay (s : State) : (startDelay s).delay = s.latencies.headD 0 := rfl
@[simp] theorem startDelay_latencies (s : State) : (startDelay s).latencies = s.latencies.tail := rfl

/-! ### writeStatus -/

@[simp] theorem writeStatus_cfg (v : Word) (s : State) : (writeStatus v s).cfg = s.cfg := rfl
@[simp] theorem writeStatus_phase (v : Word) (s : State) : (writeStatus v s).phase = s.phase := rfl
@[simp] theorem writeStatus_snap (v : Word) (s : State) : (writeStatus v s).snap = s.snap := rfl
@[simp] theorem writeStatus_ie (v : Word) (s : State) : (writeStatus v s).ie = s.ie := rfl
@[simp] theorem writeStatus_done (v : Word) (s : State) : (writeStatus v s).done = (s.done && !v.getLsbD 1) := rfl
@[simp] theorem writeStatus_ovr (v : Word) (s : State) : (writeStatus v s).ovr = (s.ovr && !v.getLsbD 2) := rfl
@[simp] theorem writeStatus_errcode (v : Word) (s : State) : (writeStatus v s).errcode = s.errcode := rfl
@[simp] theorem writeStatus_ef (v : Word) (s : State) : (writeStatus v s).ef = s.ef := rfl
@[simp] theorem writeStatus_cmd (v : Word) (s : State) : (writeStatus v s).cmd = s.cmd := rfl
@[simp] theorem writeStatus_keylen (v : Word) (s : State) : (writeStatus v s).keylen = s.keylen := rfl
@[simp] theorem writeStatus_period (v : Word) (s : State) : (writeStatus v s).period = s.period := rfl
@[simp] theorem writeStatus_value (v : Word) (s : State) : (writeStatus v s).value = s.value := rfl
@[simp] theorem writeStatus_ctrHi (v : Word) (s : State) : (writeStatus v s).ctrHi = s.ctrHi := rfl
@[simp] theorem writeStatus_ctrLo (v : Word) (s : State) : (writeStatus v s).ctrLo = s.ctrLo := rfl
@[simp] theorem writeStatus_tsHi (v : Word) (s : State) : (writeStatus v s).tsHi = s.tsHi := rfl
@[simp] theorem writeStatus_tsLo (v : Word) (s : State) : (writeStatus v s).tsLo = s.tsLo := rfl
@[simp] theorem writeStatus_msgHi (v : Word) (s : State) : (writeStatus v s).msgHi = s.msgHi := rfl
@[simp] theorem writeStatus_msgLo (v : Word) (s : State) : (writeStatus v s).msgLo = s.msgLo := rfl
@[simp] theorem writeStatus_tstepHi (v : Word) (s : State) : (writeStatus v s).tstepHi = s.tstepHi := rfl
@[simp] theorem writeStatus_tstepLo (v : Word) (s : State) : (writeStatus v s).tstepLo = s.tstepLo := rfl
@[simp] theorem writeStatus_offset (v : Word) (s : State) : (writeStatus v s).offset = s.offset := rfl
@[simp] theorem writeStatus_binary (v : Word) (s : State) : (writeStatus v s).binary = s.binary := rfl
@[simp] theorem writeStatus_code (v : Word) (s : State) : (writeStatus v s).code = s.code := rfl
@[simp] theorem writeStatus_outlen (v : Word) (s : State) : (writeStatus v s).outlen = s.outlen := rfl
@[simp] theorem writeStatus_outc (v : Word) (s : State) : (writeStatus v s).outc = s.outc := rfl
@[simp] theorem writeStatus_maccnt (v : Word) (s : State) : (writeStatus v s).maccnt = s.maccnt := rfl
@[simp] theorem writeStatus_dig (v : Word) (s : State) : (writeStatus v s).dig = s.dig := rfl
@[simp] theorem writeStatus_key (v : Word) (s : State) : (writeStatus v s).key = s.key := rfl
@[simp] theorem writeStatus_pending (v : Word) (s : State) : (writeStatus v s).pending = s.pending := rfl
@[simp] theorem writeStatus_reads (v : Word) (s : State) : (writeStatus v s).reads = s.reads := rfl
@[simp] theorem writeStatus_delay (v : Word) (s : State) : (writeStatus v s).delay = s.delay := rfl
@[simp] theorem writeStatus_latencies (v : Word) (s : State) : (writeStatus v s).latencies = s.latencies := rfl

/-! ### tick -/

@[simp] theorem tick_cfg (rest : List BusEvent) (s : State) : (tick rest s).cfg = s.cfg := rfl
@[simp] theorem tick_phase (rest : List BusEvent) (s : State) : (tick rest s).phase = s.phase := rfl
@[simp] theorem tick_snap (rest : List BusEvent) (s : State) : (tick rest s).snap = s.snap := rfl
@[simp] theorem tick_ie (rest : List BusEvent) (s : State) : (tick rest s).ie = s.ie := rfl
@[simp] theorem tick_done (rest : List BusEvent) (s : State) : (tick rest s).done = s.done := rfl
@[simp] theorem tick_ovr (rest : List BusEvent) (s : State) : (tick rest s).ovr = s.ovr := rfl
@[simp] theorem tick_errcode (rest : List BusEvent) (s : State) : (tick rest s).errcode = s.errcode := rfl
@[simp] theorem tick_ef (rest : List BusEvent) (s : State) : (tick rest s).ef = s.ef := rfl
@[simp] theorem tick_cmd (rest : List BusEvent) (s : State) : (tick rest s).cmd = s.cmd := rfl
@[simp] theorem tick_keylen (rest : List BusEvent) (s : State) : (tick rest s).keylen = s.keylen := rfl
@[simp] theorem tick_period (rest : List BusEvent) (s : State) : (tick rest s).period = s.period := rfl
@[simp] theorem tick_value (rest : List BusEvent) (s : State) : (tick rest s).value = s.value := rfl
@[simp] theorem tick_ctrHi (rest : List BusEvent) (s : State) : (tick rest s).ctrHi = s.ctrHi := rfl
@[simp] theorem tick_ctrLo (rest : List BusEvent) (s : State) : (tick rest s).ctrLo = s.ctrLo := rfl
@[simp] theorem tick_tsHi (rest : List BusEvent) (s : State) : (tick rest s).tsHi = s.tsHi := rfl
@[simp] theorem tick_tsLo (rest : List BusEvent) (s : State) : (tick rest s).tsLo = s.tsLo := rfl
@[simp] theorem tick_msgHi (rest : List BusEvent) (s : State) : (tick rest s).msgHi = s.msgHi := rfl
@[simp] theorem tick_msgLo (rest : List BusEvent) (s : State) : (tick rest s).msgLo = s.msgLo := rfl
@[simp] theorem tick_tstepHi (rest : List BusEvent) (s : State) : (tick rest s).tstepHi = s.tstepHi := rfl
@[simp] theorem tick_tstepLo (rest : List BusEvent) (s : State) : (tick rest s).tstepLo = s.tstepLo := rfl
@[simp] theorem tick_offset (rest : List BusEvent) (s : State) : (tick rest s).offset = s.offset := rfl
@[simp] theorem tick_binary (rest : List BusEvent) (s : State) : (tick rest s).binary = s.binary := rfl
@[simp] theorem tick_code (rest : List BusEvent) (s : State) : (tick rest s).code = s.code := rfl
@[simp] theorem tick_outlen (rest : List BusEvent) (s : State) : (tick rest s).outlen = s.outlen := rfl
@[simp] theorem tick_outc (rest : List BusEvent) (s : State) : (tick rest s).outc = s.outc := rfl
@[simp] theorem tick_maccnt (rest : List BusEvent) (s : State) : (tick rest s).maccnt = s.maccnt := rfl
@[simp] theorem tick_dig (rest : List BusEvent) (s : State) : (tick rest s).dig = s.dig := rfl
@[simp] theorem tick_key (rest : List BusEvent) (s : State) : (tick rest s).key = s.key := rfl
@[simp] theorem tick_pending (rest : List BusEvent) (s : State) : (tick rest s).pending = rest := rfl
@[simp] theorem tick_reads (rest : List BusEvent) (s : State) : (tick rest s).reads = s.reads := rfl
@[simp] theorem tick_delay (rest : List BusEvent) (s : State) : (tick rest s).delay = s.delay - 1 := rfl
@[simp] theorem tick_latencies (rest : List BusEvent) (s : State) : (tick rest s).latencies = s.latencies := rfl

/-! ### deliver -/

@[simp] theorem deliver_cfg (v : Word) (s : State) : (deliver v s).cfg = s.cfg := rfl
@[simp] theorem deliver_phase (v : Word) (s : State) : (deliver v s).phase = s.phase := rfl
@[simp] theorem deliver_snap (v : Word) (s : State) : (deliver v s).snap = s.snap := rfl
@[simp] theorem deliver_ie (v : Word) (s : State) : (deliver v s).ie = s.ie := rfl
@[simp] theorem deliver_done (v : Word) (s : State) : (deliver v s).done = s.done := rfl
@[simp] theorem deliver_ovr (v : Word) (s : State) : (deliver v s).ovr = s.ovr := rfl
@[simp] theorem deliver_errcode (v : Word) (s : State) : (deliver v s).errcode = s.errcode := rfl
@[simp] theorem deliver_ef (v : Word) (s : State) : (deliver v s).ef = s.ef := rfl
@[simp] theorem deliver_cmd (v : Word) (s : State) : (deliver v s).cmd = s.cmd := rfl
@[simp] theorem deliver_keylen (v : Word) (s : State) : (deliver v s).keylen = s.keylen := rfl
@[simp] theorem deliver_period (v : Word) (s : State) : (deliver v s).period = s.period := rfl
@[simp] theorem deliver_value (v : Word) (s : State) : (deliver v s).value = s.value := rfl
@[simp] theorem deliver_ctrHi (v : Word) (s : State) : (deliver v s).ctrHi = s.ctrHi := rfl
@[simp] theorem deliver_ctrLo (v : Word) (s : State) : (deliver v s).ctrLo = s.ctrLo := rfl
@[simp] theorem deliver_tsHi (v : Word) (s : State) : (deliver v s).tsHi = s.tsHi := rfl
@[simp] theorem deliver_tsLo (v : Word) (s : State) : (deliver v s).tsLo = s.tsLo := rfl
@[simp] theorem deliver_msgHi (v : Word) (s : State) : (deliver v s).msgHi = s.msgHi := rfl
@[simp] theorem deliver_msgLo (v : Word) (s : State) : (deliver v s).msgLo = s.msgLo := rfl
@[simp] theorem deliver_tstepHi (v : Word) (s : State) : (deliver v s).tstepHi = s.tstepHi := rfl
@[simp] theorem deliver_tstepLo (v : Word) (s : State) : (deliver v s).tstepLo = s.tstepLo := rfl
@[simp] theorem deliver_offset (v : Word) (s : State) : (deliver v s).offset = s.offset := rfl
@[simp] theorem deliver_binary (v : Word) (s : State) : (deliver v s).binary = s.binary := rfl
@[simp] theorem deliver_code (v : Word) (s : State) : (deliver v s).code = s.code := rfl
@[simp] theorem deliver_outlen (v : Word) (s : State) : (deliver v s).outlen = s.outlen := rfl
@[simp] theorem deliver_outc (v : Word) (s : State) : (deliver v s).outc = s.outc := rfl
@[simp] theorem deliver_maccnt (v : Word) (s : State) : (deliver v s).maccnt = s.maccnt := rfl
@[simp] theorem deliver_dig (v : Word) (s : State) : (deliver v s).dig = s.dig := rfl
@[simp] theorem deliver_key (v : Word) (s : State) : (deliver v s).key = s.key := rfl
@[simp] theorem deliver_pending (v : Word) (s : State) : (deliver v s).pending = s.pending := rfl
@[simp] theorem deliver_reads (v : Word) (s : State) : (deliver v s).reads = v :: s.reads := rfl
@[simp] theorem deliver_delay (v : Word) (s : State) : (deliver v s).delay = s.delay := rfl
@[simp] theorem deliver_latencies (v : Word) (s : State) : (deliver v s).latencies = s.latencies := rfl

/-! ### resetBlock -/

@[simp] theorem resetBlock_cfg (s : State) : (resetBlock s).cfg = s.cfg := rfl
@[simp] theorem resetBlock_phase (s : State) : (resetBlock s).phase = .idle := rfl
@[simp] theorem resetBlock_snap (s : State) : (resetBlock s).snap = Snapshot.discarded := rfl
@[simp] theorem resetBlock_ie (s : State) : (resetBlock s).ie = false := rfl
@[simp] theorem resetBlock_done (s : State) : (resetBlock s).done = false := rfl
@[simp] theorem resetBlock_ovr (s : State) : (resetBlock s).ovr = false := rfl
@[simp] theorem resetBlock_errcode (s : State) : (resetBlock s).errcode = .none := rfl
@[simp] theorem resetBlock_ef (s : State) : (resetBlock s).ef = {} := rfl
@[simp] theorem resetBlock_cmd (s : State) : (resetBlock s).cmd = 0 := rfl
@[simp] theorem resetBlock_keylen (s : State) : (resetBlock s).keylen = 0 := rfl
@[simp] theorem resetBlock_period (s : State) : (resetBlock s).period = 30 := rfl
@[simp] theorem resetBlock_value (s : State) : (resetBlock s).value = 0 := rfl
@[simp] theorem resetBlock_ctrHi (s : State) : (resetBlock s).ctrHi = 0 := rfl
@[simp] theorem resetBlock_ctrLo (s : State) : (resetBlock s).ctrLo = 0 := rfl
@[simp] theorem resetBlock_tsHi (s : State) : (resetBlock s).tsHi = 0 := rfl
@[simp] theorem resetBlock_tsLo (s : State) : (resetBlock s).tsLo = 0 := rfl
@[simp] theorem resetBlock_msgHi (s : State) : (resetBlock s).msgHi = 0 := rfl
@[simp] theorem resetBlock_msgLo (s : State) : (resetBlock s).msgLo = 0 := rfl
@[simp] theorem resetBlock_tstepHi (s : State) : (resetBlock s).tstepHi = 0 := rfl
@[simp] theorem resetBlock_tstepLo (s : State) : (resetBlock s).tstepLo = 0 := rfl
@[simp] theorem resetBlock_offset (s : State) : (resetBlock s).offset = 0 := rfl
@[simp] theorem resetBlock_binary (s : State) : (resetBlock s).binary = 0 := rfl
@[simp] theorem resetBlock_code (s : State) : (resetBlock s).code = 0 := rfl
@[simp] theorem resetBlock_outlen (s : State) : (resetBlock s).outlen = 0 := rfl
@[simp] theorem resetBlock_outc (s : State) : (resetBlock s).outc = [] := rfl
@[simp] theorem resetBlock_maccnt (s : State) : (resetBlock s).maccnt = 0 := rfl
@[simp] theorem resetBlock_dig (s : State) : (resetBlock s).dig = [] := rfl
@[simp] theorem resetBlock_key (s : State) : (resetBlock s).key = [] := rfl
@[simp] theorem resetBlock_pending (s : State) : (resetBlock s).pending = s.pending := rfl
@[simp] theorem resetBlock_reads (s : State) : (resetBlock s).reads = s.reads := rfl
@[simp] theorem resetBlock_delay (s : State) : (resetBlock s).delay = 0 := rfl
@[simp] theorem resetBlock_latencies (s : State) : (resetBlock s).latencies = s.latencies := rfl

/-! ### The results of HOTP and TOTP together -/

@[simp] theorem putHotp_cfg (r : HotpResult) (d : Nat) (s : State) : (putHotp r d s).cfg = s.cfg := by simp [putHotp]
@[simp] theorem putHotp_phase (r : HotpResult) (d : Nat) (s : State) : (putHotp r d s).phase = s.phase := by simp [putHotp]
@[simp] theorem putHotp_snap (r : HotpResult) (d : Nat) (s : State) : (putHotp r d s).snap = s.snap := by simp [putHotp]
@[simp] theorem putHotp_ie (r : HotpResult) (d : Nat) (s : State) : (putHotp r d s).ie = s.ie := by simp [putHotp]
@[simp] theorem putHotp_done (r : HotpResult) (d : Nat) (s : State) : (putHotp r d s).done = s.done := by simp [putHotp]
@[simp] theorem putHotp_ovr (r : HotpResult) (d : Nat) (s : State) : (putHotp r d s).ovr = s.ovr := by simp [putHotp]
@[simp] theorem putHotp_errcode (r : HotpResult) (d : Nat) (s : State) : (putHotp r d s).errcode = s.errcode := by simp [putHotp]
@[simp] theorem putHotp_ef (r : HotpResult) (d : Nat) (s : State) : (putHotp r d s).ef = s.ef := by simp [putHotp]
@[simp] theorem putHotp_cmd (r : HotpResult) (d : Nat) (s : State) : (putHotp r d s).cmd = s.cmd := by simp [putHotp]
@[simp] theorem putHotp_keylen (r : HotpResult) (d : Nat) (s : State) : (putHotp r d s).keylen = 0 := by simp [putHotp]
@[simp] theorem putHotp_period (r : HotpResult) (d : Nat) (s : State) : (putHotp r d s).period = s.period := by simp [putHotp]
@[simp] theorem putHotp_value (r : HotpResult) (d : Nat) (s : State) : (putHotp r d s).value = s.value := by simp [putHotp]
@[simp] theorem putHotp_ctrHi (r : HotpResult) (d : Nat) (s : State) : (putHotp r d s).ctrHi = s.ctrHi := by simp [putHotp]
@[simp] theorem putHotp_ctrLo (r : HotpResult) (d : Nat) (s : State) : (putHotp r d s).ctrLo = s.ctrLo := by simp [putHotp]
@[simp] theorem putHotp_tsHi (r : HotpResult) (d : Nat) (s : State) : (putHotp r d s).tsHi = s.tsHi := by simp [putHotp]
@[simp] theorem putHotp_tsLo (r : HotpResult) (d : Nat) (s : State) : (putHotp r d s).tsLo = s.tsLo := by simp [putHotp]
@[simp] theorem putHotp_msgHi (r : HotpResult) (d : Nat) (s : State) : (putHotp r d s).msgHi = packBe (byteAt r.M) 0 := by simp [putHotp]
@[simp] theorem putHotp_msgLo (r : HotpResult) (d : Nat) (s : State) : (putHotp r d s).msgLo = packBe (byteAt r.M) 1 := by simp [putHotp]
@[simp] theorem putHotp_tstepHi (r : HotpResult) (d : Nat) (s : State) : (putHotp r d s).tstepHi = s.tstepHi := by simp [putHotp]
@[simp] theorem putHotp_tstepLo (r : HotpResult) (d : Nat) (s : State) : (putHotp r d s).tstepLo = s.tstepLo := by simp [putHotp]
@[simp] theorem putHotp_offset (r : HotpResult) (d : Nat) (s : State) : (putHotp r d s).offset = BitVec.ofNat 4 r.offset := by simp [putHotp]
@[simp] theorem putHotp_binary (r : HotpResult) (d : Nat) (s : State) : (putHotp r d s).binary = BitVec.ofNat 31 r.binary := by simp [putHotp]
@[simp] theorem putHotp_code (r : HotpResult) (d : Nat) (s : State) : (putHotp r d s).code = BitVec.ofNat 31 r.code := by simp [putHotp]
@[simp] theorem putHotp_outlen (r : HotpResult) (d : Nat) (s : State) : (putHotp r d s).outlen = BitVec.ofNat 4 d := by simp [putHotp]
@[simp] theorem putHotp_outc (r : HotpResult) (d : Nat) (s : State) : (putHotp r d s).outc = Memory.ofBytes (outBytes r.ch d) := by simp [putHotp]
@[simp] theorem putHotp_maccnt (r : HotpResult) (d : Nat) (s : State) : (putHotp r d s).maccnt = s.maccnt + 1 := by simp [putHotp]
@[simp] theorem putHotp_dig (r : HotpResult) (d : Nat) (s : State) : (putHotp r d s).dig = Memory.ofBytes (r.H ++ zeros (64 - r.H.length)) := by simp [putHotp]
@[simp] theorem putHotp_key (r : HotpResult) (d : Nat) (s : State) : (putHotp r d s).key = Memory.cleared := by simp [putHotp]
@[simp] theorem putHotp_pending (r : HotpResult) (d : Nat) (s : State) : (putHotp r d s).pending = s.pending := by simp [putHotp]
@[simp] theorem putHotp_reads (r : HotpResult) (d : Nat) (s : State) : (putHotp r d s).reads = s.reads := by simp [putHotp]
@[simp] theorem putHotp_delay (r : HotpResult) (d : Nat) (s : State) : (putHotp r d s).delay = s.delay := by simp [putHotp]
@[simp] theorem putHotp_latencies (r : HotpResult) (d : Nat) (s : State) : (putHotp r d s).latencies = s.latencies := by simp [putHotp]

end Sys2Proof.Machine
end

