-- ==== Sys2Proof/Laws/Registers.lean ====
section
/-! SUPPORT. The register map (10_state.md R22) and what a read of a register depends on. -/

namespace Sys2Proof.Machine

/-! ## The map -/

/-- Above the block of single registers only the DIGEST and KEY words are left. -/
theorem regOfIndex_of_ge {k n : Nat} (h : 24 ≤ n) : regOfIndex k n =
    if 0x20 ≤ n ∧ n < 0x30 then some (.digest (Fin.ofNat 16 (n - 0x20)))
    else if 0x40 ≤ n ∧ n < 0x80 ∧ 4 * (n - 0x40) < k then some (.key (Fin.ofNat 64 (n - 0x40)))
    else none := by
  unfold regOfIndex
  split
  all_goals first | omega | rfl

/-- Every register lies in the window, at an aligned offset. -/
theorem off_lt (r : Reg) : r.off < 0x200 ∧ r.off % 4 = 0 := by
  cases r <;> first | decide | (simp only [Reg.off]; omega)

/-- A mapped register is found at its offset. -/
theorem regAt_off {k : Nat} {r : Reg} (h : mappedReg k r) : regAt k r.off = some r := by
  obtain ⟨h1, h2⟩ := off_lt r
  rw [regAt, if_pos ⟨h2, h1⟩]
  cases r with
  | out j => fin_cases j <;> rfl
  | digest j =>
    simp only [Reg.off]
    rw [regOfIndex_of_ge (by omega), if_pos (by omega), show (0x080 + 4 * j.val) / 4 - 0x20 = j.val by omega]
    simp
  | key j =>
    simp only [Reg.off]
    have hk : 4 * j.val < k := h
    rw [regOfIndex_of_ge (by omega), if_neg (by omega), if_pos (by omega),
      show (0x100 + 4 * j.val) / 4 - 0x40 = j.val by omega]
    simp
  | _ => rfl

/-- A register found at an offset is mapped and lies there. -/
theorem off_of_regAt {k off : Nat} {r : Reg} (h : regAt k off = some r) : mappedReg k r ∧ r.off = off := by
  unfold regAt at h
  split at h
  · rename_i hoff
    by_cases hn : 24 ≤ off / 4
    · rw [regOfIndex_of_ge hn] at h
      split at h
      · rename_i hd
        obtain rfl := Option.some.inj h
        refine ⟨trivial, ?_⟩
        simp only [Reg.off, Fin.val_ofNat]
        omega
      · split at h
        · rename_i hk
          obtain rfl := Option.some.inj h
          simp only [mappedReg, Reg.off, Fin.val_ofNat]
          omega
        · cases h
    · obtain ⟨n, rfl⟩ : ∃ n, off = 4 * n := ⟨off / 4, by omega⟩
      rw [Nat.mul_div_cancel_left n (by omega)] at h hn
      have : n < 24 := by omega
      interval_cases n <;> (obtain rfl := Option.some.inj h; exact ⟨trivial, rfl⟩)
  · cases h

/-- There is a register exactly at the offsets of R22. -/
theorem regAt_isSome {k off : Nat} (h : off < 0x200) : (regAt k off).isSome ↔ mappedOffset k off := by
  unfold regAt mappedOffset
  by_cases h4 : off % 4 = 0
  · rw [if_pos ⟨h4, h⟩]
    by_cases hn : 24 ≤ off / 4
    · rw [regOfIndex_of_ge hn]
      split
      · simp; omega
      · split
        · simp; omega
        · simp; omega
    · obtain ⟨n, rfl⟩ : ∃ n, off = 4 * n := ⟨off / 4, by omega⟩
      rw [Nat.mul_div_cancel_left n (by omega)] at hn ⊢
      have : n < 24 := by omega
      refine iff_of_true ?_ (by omega)
      interval_cases n <;> rfl
  · rw [if_neg (by tauto)]
    simp [h4]

/-! ## What a read depends on -/

/-- Two states with the same registers read alike, but for STATUS. -/
theorem readReg_congr {s t : State} (r : Reg) (hr : r ≠ .status) (h1 : t.cfg = s.cfg) (h2 : t.ie = s.ie)
    (h3 : t.cmd = s.cmd) (h4 : t.keylen = s.keylen) (h5 : t.period = s.period) (h6 : t.value = s.value)
    (h7 : t.ctrHi = s.ctrHi) (h8 : t.ctrLo = s.ctrLo) (h9 : t.tsHi = s.tsHi) (h10 : t.tsLo = s.tsLo)
    (h11 : t.msgHi = s.msgHi) (h12 : t.msgLo = s.msgLo) (h13 : t.tstepHi = s.tstepHi)
    (h14 : t.tstepLo = s.tstepLo) (h15 : t.offset = s.offset) (h16 : t.binary = s.binary)
    (h17 : t.code = s.code) (h18 : t.outlen = s.outlen) (h19 : t.outc = s.outc) (h20 : t.maccnt = s.maccnt)
    (h21 : t.dig = s.dig) : readReg t r = readReg s r := by
  cases r <;> simp_all [readReg]

@[simp] theorem statusWord_tick (rest : List BusEvent) (s : State) : statusWord (tick rest s) = statusWord s := rfl

@[simp] theorem statusWord_deliver (v : Word) (s : State) : statusWord (deliver v s) = statusWord s := rfl

@[simp] theorem readReg_tick (rest : List BusEvent) (s : State) (r : Reg) :
    readReg (tick rest s) r = readReg s r := by
  cases r <;> rfl

@[simp] theorem readReg_deliver (v : Word) (s : State) (r : Reg) : readReg (deliver v s) r = readReg s r := by
  cases r <;> rfl

/-- Completing a command changes what STATUS reads as, and no other register. -/
theorem readReg_complete (e : ErrCode) (F : ErrFlags) (s : State) {r : Reg} (h : r ≠ .status) :
    readReg (complete e F s) r = readReg s r :=
  readReg_congr r h rfl rfl rfl rfl rfl rfl rfl rfl rfl rfl rfl rfl rfl rfl rfl rfl rfl rfl rfl rfl rfl

/-- Accepting a command changes what CMD and STATUS read as, and no other register. -/
theorem readReg_accept (w : Word) (s : State) {r : Reg} (h : r ≠ .cmd) (h' : r ≠ .status) :
    readReg (accept w s) r = readReg s r := by
  cases r <;> first | rfl | contradiction

/-! ## The bits of STATUS -/

/-- Each bit of the STATUS word (R27). -/
theorem getLsbD_statusWord (s : State) (i : Nat) : (statusWord s).getLsbD i =
    if i = 0 then s.phase.isBusy else if i = 1 then s.done else if i = 2 then s.ovr else if i = 3 then false
    else if i < 8 then s.errcode.num.getLsbD (i - 4)
    else if i = 8 then s.ef.digits else if i = 9 then s.ef.period else if i = 10 then s.ef.counter
    else if i = 11 then s.ef.alg else if i = 12 then s.ef.keylen else if i = 13 then s.ef.cmd else false := by
  simp only [statusWord, BitVec.getLsbD_append]
  by_cases hi : i < 14
  · interval_cases i <;> simp
  · repeat rw [if_neg (by omega)]
    simp

/-- STATUS after a completion (R79). -/
theorem statusWord_complete_none (s : State) : statusWord (complete .none {} s) = statusWith 0x2 s.ovr := by
  refine BitVec.eq_of_getLsbD_eq fun i hi => ?_
  rw [getLsbD_statusWord]
  cases h : s.ovr <;> interval_cases i <;> simp [statusWith, h, Phase.isBusy, ErrCode.num]

/-- STATUS after an illegal word (R83). -/
theorem statusWord_complete_illegal (s : State) :
    statusWord (complete .illegalCommand { cmd := true } s) = statusWith 0x2062 s.ovr := by
  refine BitVec.eq_of_getLsbD_eq fun i hi => ?_
  rw [getLsbD_statusWord]
  cases h : s.ovr <;> interval_cases i <;> simp [statusWith, h, Phase.isBusy, ErrCode.num]

/-- STATUS after an acceptance (R73). -/
theorem statusWord_accept (w : Word) (s : State) : statusWord (accept w s) = statusWith 0x1 s.ovr := by
  refine BitVec.eq_of_getLsbD_eq fun i hi => ?_
  rw [getLsbD_statusWord]
  cases h : s.ovr <;> interval_cases i <;> simp [statusWith, h, accept, Phase.isBusy, ErrCode.num]

/-- The ERRCODE field of STATUS. -/
theorem errcode_statusWord (s : State) : (statusWord s).extractLsb' 4 4 = s.errcode.num := by
  refine BitVec.eq_of_getLsbD_eq fun i hi => ?_
  rw [BitVec.getLsbD_extractLsb', getLsbD_statusWord]
  interval_cases i <;> simp

/-- The EF_* fields of STATUS. -/
theorem flags_statusWord (s : State) :
    (statusWord s).getLsbD 8 = s.ef.digits ∧ (statusWord s).getLsbD 9 = s.ef.period ∧
    (statusWord s).getLsbD 10 = s.ef.counter ∧ (statusWord s).getLsbD 11 = s.ef.alg ∧
    (statusWord s).getLsbD 12 = s.ef.keylen ∧ (statusWord s).getLsbD 13 = s.ef.cmd := by
  simp only [getLsbD_statusWord]
  simp

/-- ERRCODE is 0 exactly if there is no error (R104). -/
theorem num_eq_zero {e : ErrCode} : e.num = 0 ↔ e = .none := by
  cases e <;> decide

end Sys2Proof.Machine
end

