-- ==== Sys2Proof/Laws/Engine.lean ====
section
/-! SUPPORT. What a completion step can do (40_command_execution.md R76 to R80): the checks, and what each
`perform` leaves alone. -/

namespace Sys2Proof.Machine

/-! ## The checks -/

/-- There is no error code exactly if no check fails. -/
theorem errCodeOf_eq_none {F : ErrFlags} : errCodeOf F = .none ↔ F = {} := by
  obtain ⟨a, b, c, d, e, f⟩ := F
  cases a <;> cases b <;> cases c <;> cases d <;> cases e <;> cases f <;> decide

theorem digitsFail_eq_false {d : Nat} : digitsFail d = false ↔ 1 ≤ d ∧ d ≤ 10 := by
  show (!(decide (1 ≤ d) && decide (d ≤ 10))) = false ↔ _
  simp

/-- When a command passes all its checks (R76). -/
theorem checks_pass {i : Instr} {k : Nat} {S : Snapshot} : errCodeOf (checks i k S) = .none ↔
    (∀ d, digitsUsed i = some d → 1 ≤ d ∧ d ≤ 10) ∧ (usesPeriod i = true → S.period ≠ 0) ∧
    algUsed i ≠ some none ∧ (usesKey i = true → S.keylen.toNat ≤ k) := by
  rw [errCodeOf_eq_none]
  have hA : ∀ a : AlgTag, a.isNone = false ↔ a ≠ none := fun a => by cases a <;> simp
  cases i <;>
    simp [checks, digitsUsed, usesPeriod, algUsed, usesKey, counterFail, digitsFail_eq_false, hA]

theorem pass_mac {a : Alg} {k : Nat} {S : Snapshot} (hk : S.keylen.toNat ≤ k) :
    errCodeOf (checks (.mac (some a)) k S) = .none :=
  checks_pass.mpr ⟨by simp [digitsUsed], by simp [usesPeriod], by simp [algUsed], fun _ => hk⟩

theorem pass_trunc {a : Alg} {d k : Nat} {S : Snapshot} (h1 : 1 ≤ d) (h2 : d ≤ 10) :
    errCodeOf (checks (.trunc (some a) d) k S) = .none :=
  checks_pass.mpr ⟨by simp [digitsUsed, h1, h2], by simp [usesPeriod], by simp [algUsed], by simp [usesKey]⟩

theorem pass_fmt {d k : Nat} {S : Snapshot} (h1 : 1 ≤ d) (h2 : d ≤ 10) :
    errCodeOf (checks (.fmt d) k S) = .none :=
  checks_pass.mpr ⟨by simp [digitsUsed, h1, h2], by simp [usesPeriod], by simp [algUsed], by simp [usesKey]⟩

theorem pass_hotp {a : Alg} {d k : Nat} {S : Snapshot} (h1 : 1 ≤ d) (h2 : d ≤ 10)
    (hk : S.keylen.toNat ≤ k) : errCodeOf (checks (.hotp (some a) d) k S) = .none :=
  checks_pass.mpr ⟨by simp [digitsUsed, h1, h2], by simp [usesPeriod], by simp [algUsed], fun _ => hk⟩

theorem pass_tstep {k : Nat} {S : Snapshot} (hp : S.period ≠ 0) : errCodeOf (checks .tstep k S) = .none :=
  checks_pass.mpr ⟨by simp [digitsUsed], fun _ => hp, by simp [algUsed], by simp [usesKey]⟩

theorem pass_totp {a : Alg} {d k : Nat} {S : Snapshot} (h1 : 1 ≤ d) (h2 : d ≤ 10) (hp : S.period ≠ 0)
    (hk : S.keylen.toNat ≤ k) : errCodeOf (checks (.totp (some a) d) k S) = .none :=
  checks_pass.mpr ⟨by simp [digitsUsed, h1, h2], fun _ => hp, by simp [algUsed], fun _ => hk⟩

/-- The checks never fail COUNTER (R106) and never CMD. -/
@[simp] theorem checks_counter (i : Instr) (k : Nat) (S : Snapshot) : (checks i k S).counter = false := rfl

@[simp] theorem checks_cmd (i : Instr) (k : Nat) (S : Snapshot) : (checks i k S).cmd = false := rfl

/-- The key-consuming commands by their OP number (R17, R65). -/
theorem usesKey_iff {i : Instr} :
    usesKey i = true ↔ ((opOf i).toNat = 2 ∨ (opOf i).toNat = 5 ∨ (opOf i).toNat = 7) := by
  cases i <;> simp [usesKey, opOf]

/-! ## The completion step -/

/-- A command that passes its checks is performed and completes without error. -/
theorem completeStep_pass {i : Instr} {s : State} (p : State → State)
    (h : errCodeOf (checks i s.cfg.keyMaxBytes s.snap) = .none) :
    completeStep i p s = complete .none {} (p s) := by
  have hF := errCodeOf_eq_none.mp h
  simp only [completeStep, hF, show errCodeOf {} = .none from rfl]

/-- A command that fails a check completes with its error, and is not performed. -/
theorem completeStep_fail {i : Instr} {s : State} (p : State → State)
    (h : errCodeOf (checks i s.cfg.keyMaxBytes s.snap) ≠ .none) :
    completeStep i p s =
      complete (errCodeOf (checks i s.cfg.keyMaxBytes s.snap)) (checks i s.cfg.keyMaxBytes s.snap) s := by
  unfold completeStep
  cases hc : errCodeOf (checks i s.cfg.keyMaxBytes s.snap) <;> simp_all

/-- In every case a completion step ends in `complete`, with the failed checks and their code. -/
theorem completeStep_eq (i : Instr) (p : State → State) (s : State) :
    completeStep i p s = complete (errCodeOf (checks i s.cfg.keyMaxBytes s.snap))
      (checks i s.cfg.keyMaxBytes s.snap)
      (if errCodeOf (checks i s.cfg.keyMaxBytes s.snap) = .none then p s else s) := by
  by_cases h : errCodeOf (checks i s.cfg.keyMaxBytes s.snap) = .none
  · rw [completeStep_pass p h, if_pos h, h, errCodeOf_eq_none.mp h]
  · rw [completeStep_fail p h, if_neg h]

/-- `perform` of each command. -/
def performOf : Instr → State → State
  | .nop       => fun s => s
  | .enc       => performEnc
  | .mac a     => performMac a
  | .trunc a d => performTrunc a d
  | .fmt d     => performFmt d
  | .hotp a d  => performHotp a d
  | .tstep     => performTstep
  | .totp a d  => performTotp a d

/-- Every command is a completion step. -/
theorem exec_eq (i : Instr) (s : State) : exec i s = .next (completeStep i (performOf i) s) := by
  cases i <;> rfl

/-- An illegal word completes with its error. -/
theorem execIllegal_eq (s : State) : execIllegal s = .next (complete .illegalCommand { cmd := true } s) := rfl

/-! ## What no `perform` writes (R44) -/

@[simp] theorem performOf_cfg (i : Instr) (s : State) : (performOf i s).cfg = s.cfg := by
  cases i <;> first | rfl | (rename_i a; cases a <;> rfl) | (rename_i a d; cases a <;> simp [performOf, performTrunc, performHotp, performTotp])

@[simp] theorem performOf_phase (i : Instr) (s : State) : (performOf i s).phase = s.phase := by
  cases i <;> first | rfl | (rename_i a; cases a <;> rfl) | (rename_i a d; cases a <;> simp [performOf, performTrunc, performHotp, performTotp])

@[simp] theorem performOf_snap (i : Instr) (s : State) : (performOf i s).snap = s.snap := by
  cases i <;> first | rfl | (rename_i a; cases a <;> rfl) | (rename_i a d; cases a <;> simp [performOf, performTrunc, performHotp, performTotp])

@[simp] theorem performOf_ie (i : Instr) (s : State) : (performOf i s).ie = s.ie := by
  cases i <;> first | rfl | (rename_i a; cases a <;> rfl) | (rename_i a d; cases a <;> simp [performOf, performTrunc, performHotp, performTotp])

@[simp] theorem performOf_done (i : Instr) (s : State) : (performOf i s).done = s.done := by
  cases i <;> first | rfl | (rename_i a; cases a <;> rfl) | (rename_i a d; cases a <;> simp [performOf, performTrunc, performHotp, performTotp])

@[simp] theorem performOf_ovr (i : Instr) (s : State) : (performOf i s).ovr = s.ovr := by
  cases i <;> first | rfl | (rename_i a; cases a <;> rfl) | (rename_i a d; cases a <;> simp [performOf, performTrunc, performHotp, performTotp])

@[simp] theorem performOf_errcode (i : Instr) (s : State) : (performOf i s).errcode = s.errcode := by
  cases i <;> first | rfl | (rename_i a; cases a <;> rfl) | (rename_i a d; cases a <;> simp [performOf, performTrunc, performHotp, performTotp])

@[simp] theorem performOf_ef (i : Instr) (s : State) : (performOf i s).ef = s.ef := by
  cases i <;> first | rfl | (rename_i a; cases a <;> rfl) | (rename_i a d; cases a <;> simp [performOf, performTrunc, performHotp, performTotp])

@[simp] theorem performOf_cmd (i : Instr) (s : State) : (performOf i s).cmd = s.cmd := by
  cases i <;> first | rfl | (rename_i a; cases a <;> rfl) | (rename_i a d; cases a <;> simp [performOf, performTrunc, performHotp, performTotp])

@[simp] theorem performOf_period (i : Instr) (s : State) : (performOf i s).period = s.period := by
  cases i <;> first | rfl | (rename_i a; cases a <;> rfl) | (rename_i a d; cases a <;> simp [performOf, performTrunc, performHotp, performTotp])

@[simp] theorem performOf_value (i : Instr) (s : State) : (performOf i s).value = s.value := by
  cases i <;> first | rfl | (rename_i a; cases a <;> rfl) | (rename_i a d; cases a <;> simp [performOf, performTrunc, performHotp, performTotp])

@[simp] theorem performOf_ctrHi (i : Instr) (s : State) : (performOf i s).ctrHi = s.ctrHi := by
  cases i <;> first | rfl | (rename_i a; cases a <;> rfl) | (rename_i a d; cases a <;> simp [performOf, performTrunc, performHotp, performTotp])

@[simp] theorem performOf_ctrLo (i : Instr) (s : State) : (performOf i s).ctrLo = s.ctrLo := by
  cases i <;> first | rfl | (rename_i a; cases a <;> rfl) | (rename_i a d; cases a <;> simp [performOf, performTrunc, performHotp, performTotp])

@[simp] theorem performOf_tsHi (i : Instr) (s : State) : (performOf i s).tsHi = s.tsHi := by
  cases i <;> first | rfl | (rename_i a; cases a <;> rfl) | (rename_i a d; cases a <;> simp [performOf, performTrunc, performHotp, performTotp])

@[simp] theorem performOf_tsLo (i : Instr) (s : State) : (performOf i s).tsLo = s.tsLo := by
  cases i <;> first | rfl | (rename_i a; cases a <;> rfl) | (rename_i a d; cases a <;> simp [performOf, performTrunc, performHotp, performTotp])

@[simp] theorem performOf_pending (i : Instr) (s : State) : (performOf i s).pending = s.pending := by
  cases i <;> first | rfl | (rename_i a; cases a <;> rfl) | (rename_i a d; cases a <;> simp [performOf, performTrunc, performHotp, performTotp])

@[simp] theorem performOf_reads (i : Instr) (s : State) : (performOf i s).reads = s.reads := by
  cases i <;> first | rfl | (rename_i a; cases a <;> rfl) | (rename_i a d; cases a <;> simp [performOf, performTrunc, performHotp, performTotp])

@[simp] theorem performOf_delay (i : Instr) (s : State) : (performOf i s).delay = s.delay := by
  cases i <;> first | rfl | (rename_i a; cases a <;> rfl) | (rename_i a d; cases a <;> simp [performOf, performTrunc, performHotp, performTotp])

@[simp] theorem performOf_latencies (i : Instr) (s : State) : (performOf i s).latencies = s.latencies := by
  cases i <;> first | rfl | (rename_i a; cases a <;> rfl) | (rename_i a d; cases a <;> simp [performOf, performTrunc, performHotp, performTotp])

/-- What a command that uses no key does not write. -/
theorem performOf_key {i : Instr} (h : usesKey i = false) (s : State) : (performOf i s).key = s.key := by
  cases i with
  | trunc a d => cases a <;> rfl
  | mac a => simp [usesKey] at h
  | hotp a d => simp [usesKey] at h
  | totp a d => simp [usesKey] at h
  | _ => rfl

theorem performOf_keylen {i : Instr} (h : usesKey i = false) (s : State) :
    (performOf i s).keylen = s.keylen := by
  cases i with
  | trunc a d => cases a <;> rfl
  | mac a => simp [usesKey] at h
  | hotp a d => simp [usesKey] at h
  | totp a d => simp [usesKey] at h
  | _ => rfl

/-- A command leaves every register alone that R44's table does not name. -/
theorem readReg_performOf {i : Instr} {r : Reg} (h : writesReg i r = false) (s : State) :
    readReg (performOf i s) r = readReg s r := by
  cases i with
  | nop => rfl
  | enc => cases r <;> first | (simp [writesReg, opOf] at h; done) | simp [performOf, performEnc, readReg]
  | mac a =>
    cases a with
    | none => rfl
    | some a => cases r <;> first | (simp [writesReg, opOf] at h; done) | simp [performOf, performMac, readReg]
  | trunc a d =>
    cases a with
    | none => rfl
    | some a => cases r <;> first | (simp [writesReg, opOf] at h; done) | simp [performOf, performTrunc, readReg]
  | fmt d => cases r <;> first | (simp [writesReg, opOf] at h; done) | simp [performOf, performFmt, readReg]
  | hotp a d =>
    cases a with
    | none => rfl
    | some a => cases r <;> first | (simp [writesReg, opOf] at h; done) | simp [performOf, performHotp, readReg]
  | tstep => cases r <;> first | (simp [writesReg, opOf] at h; done) | simp [performOf, performTstep, readReg]
  | totp a d =>
    cases a with
    | none => rfl
    | some a => cases r <;> first | (simp [writesReg, opOf] at h; done) | simp [performOf, performTotp, readReg]

/-- A key-consuming command that has an algorithm wipes the key (R80). -/
theorem performOf_wipes {i : Instr} (h : usesKey i = true) (ha : algUsed i ≠ some none) (s : State) :
    (performOf i s).key = Memory.cleared ∧ (performOf i s).keylen = 0 := by
  cases i with
  | mac a =>
    cases a with
    | none => simp [algUsed] at ha
    | some a => exact ⟨rfl, rfl⟩
  | hotp a d =>
    cases a with
    | none => simp [algUsed] at ha
    | some a => simp [performOf, performHotp]
  | totp a d =>
    cases a with
    | none => simp [algUsed] at ha
    | some a => simp [performOf, performTotp]
  | _ => simp [usesKey] at h

/-- MACCNT is counted by the key-consuming commands alone (R41). -/
theorem performOf_maccnt {i : Instr} (ha : algUsed i ≠ some none) (s : State) :
    (performOf i s).maccnt = if usesKey i then s.maccnt + 1 else s.maccnt := by
  cases i with
  | mac a =>
    cases a with
    | none => simp [algUsed] at ha
    | some a => rfl
  | trunc a d => cases a <;> rfl
  | hotp a d =>
    cases a with
    | none => simp [algUsed] at ha
    | some a => simp [performOf, performHotp, usesKey]
  | totp a d =>
    cases a with
    | none => simp [algUsed] at ha
    | some a => simp [performOf, performTotp, usesKey]
  | _ => rfl

end Sys2Proof.Machine
end

