-- ==== Sys2Proof/Laws/Hotp.lean ====
section
/-! SUPPORT. The functions of the engine: lengths of digests, truncation, formatting and time steps
(42_hotp_engine.md section 1, 43_totp_engine.md). -/

namespace Sys2Proof.Machine

/-! ## Lengths -/

/-- A chaining value keeps its number of words if every compression does. -/
theorem length_chain {w n : Nat} {compress : List (BitVec w) → List (BitVec w) → List (BitVec w)}
    (hc : ∀ h b, h.length = n → (compress h b).length = n) (k : Nat) (h ws : List (BitVec w)) (hh : h.length = n) :
    (chain compress k h ws).length = n := by
  induction k generalizing h ws with
  | zero => exact hh
  | succ k ih => exact ih _ _ (hc _ _ hh)

theorem length_bytesOfWords {w : Nat} (k : Nat) (h : List (BitVec w)) :
    (bytesOfWords k h).length = k * h.length := by
  simp [bytesOfWords, Nat.mul_comm]

theorem length_sha1Round (t : Nat) (x : BitVec 32) (s : List (BitVec 32)) :
    (sha1Round t x s).length = s.length := by
  unfold sha1Round
  split <;> rfl

theorem length_sha1Rounds (t : Nat) (ws s : List (BitVec 32)) : (sha1Rounds t ws s).length = s.length := by
  induction ws generalizing t s with
  | nil => rfl
  | cons x ws ih => rw [sha1Rounds, ih, length_sha1Round]

theorem length_sha1Compress (h block : List (BitVec 32)) : (sha1Compress h block).length = h.length := by
  simp [sha1Compress, addWords, length_sha1Rounds]

@[simp] theorem length_sha1 (m : List Byte) : (sha1 m).length = 20 := by
  rw [sha1, length_bytesOfWords, length_chain (n := 5) (fun h b hh => by rw [length_sha1Compress, hh]) _ _ _ rfl]

theorem length_sha2Round {w : Nat} (σ : Sigmas w) (s : List (BitVec w)) (kx : BitVec w × BitVec w) :
    (sha2Round σ s kx).length = s.length := by
  unfold sha2Round
  split <;> rfl

theorem length_sha2Rounds {w : Nat} (σ : Sigmas w) (kxs : List (BitVec w × BitVec w)) (s : List (BitVec w)) :
    (kxs.foldl (sha2Round σ) s).length = s.length := by
  induction kxs generalizing s with
  | nil => rfl
  | cons kx kxs ih => rw [List.foldl_cons, ih, length_sha2Round]

theorem length_sha2Compress {w : Nat} (σ : Sigmas w) (ks h block : List (BitVec w)) :
    (sha2Compress σ ks h block).length = h.length := by
  simp [sha2Compress, addWords, length_sha2Rounds]

theorem length_firstPrimes_eight : (firstPrimes 8).length = 8 := by decide +kernel

theorem length_initialWords (w : Nat) : (initialWords w).length = 8 := by
  rw [initialWords, List.length_map, length_firstPrimes_eight]

@[simp] theorem length_sha256 (m : List Byte) : (sha256 m).length = 32 := by
  rw [sha256, length_bytesOfWords, length_chain (n := 8) (fun h b hh => by rw [length_sha2Compress, hh]) _ _ _
    (length_initialWords 32)]

@[simp] theorem length_sha512 (m : List Byte) : (sha512 m).length = 64 := by
  rw [sha512, length_bytesOfWords, length_chain (n := 8) (fun h b hh => by rw [length_sha2Compress, hh]) _ _ _
    (length_initialWords 64)]

@[simp] theorem length_hash (a : Alg) (m : List Byte) : (hash a m).length = digestLen a := by
  cases a <;> simp [hash, digestLen]

@[simp] theorem length_hmac (a : Alg) (K m : List Byte) : (hmac a K m).length = digestLen a := by
  simp [hmac]

theorem digestLen_bounds (a : Alg) : 20 ≤ digestLen a ∧ digestLen a ≤ 64 ∧ digestLen a ≤ blockLen a := by
  cases a <;> decide

@[simp] theorem length_hmacKey (a : Alg) (K : List Byte) : (hmacKey a K).length = blockLen a := by
  have := digestLen_bounds a
  unfold hmacKey
  split <;> simp <;> omega

@[simp] theorem length_enc64 (c : BitVec 64) : (enc64 c).length = 8 := rfl

@[simp] theorem length_fmtChars (v d : Nat) : (fmtChars v d).length = d := by simp [fmtChars]

@[simp] theorem length_outBytes (ch : List Byte) (d : Nat) : (outBytes ch d).length = 12 := by simp [outBytes]

/-! ## The encoded counter -/

/-- MSG_HI is the high half of the counter (R86). -/
theorem packBe_enc64_zero (c : BitVec 64) : packBe (byteAt (enc64 c)) 0 = c.extractLsb' 32 32 := by
  refine BitVec.eq_of_getLsbD_eq fun i hi => ?_
  rw [getLsbD_packBe]
  simp only [byteAt, enc64, Nat.mul_zero, Nat.zero_add, List.getD_cons_zero, List.getD_cons_succ,
    BitVec.getLsbD_extractLsb']
  split
  · simp only [hi, show i < 8 by assumption]
  · split
    · simp only [hi, show i - 8 < 8 by omega]; congr 2; omega
    · split
      · simp only [hi, show i - 16 < 8 by omega]; congr 2; omega
      · simp only [hi, show i - 24 < 8 by omega]; congr 2; omega

/-- MSG_LO is the low half of the counter (R86). -/
theorem packBe_enc64_one (c : BitVec 64) : packBe (byteAt (enc64 c)) 1 = c.extractLsb' 0 32 := by
  refine BitVec.eq_of_getLsbD_eq fun i hi => ?_
  rw [getLsbD_packBe]
  simp only [byteAt, enc64, Nat.mul_one, Nat.reduceAdd, List.getD_cons_zero, List.getD_cons_succ,
    BitVec.getLsbD_extractLsb']
  split
  · simp only [hi, show i < 8 by assumption]
  · split
    · simp only [hi, show i - 8 < 8 by omega]; congr 2; omega
    · split
      · simp only [hi, show i - 16 < 8 by omega]; congr 2; omega
      · simp only [hi, show i - 24 < 8 by omega]; congr 2; omega

/-! ## Truncation (R89, R90) -/

theorem truncOffset_eq (H : List Byte) : truncOffset H = offsetOf H.length H := by
  unfold truncOffset offsetOf
  exact Nat.and_two_pow_sub_one_eq_mod _ 4

theorem truncOffset_lt (H : List Byte) : truncOffset H < 16 := by
  rw [truncOffset_eq]
  exact Nat.mod_lt _ (by omega)

/-- The masks and shifts of R89 as arithmetic. -/
theorem truncBinary_eq (H : List Byte) (o : Nat) : truncBinary H o =
    bytesVal [byteAt H o, byteAt H (o + 1), byteAt H (o + 2), byteAt H (o + 3)] % 2 ^ 31 := by
  have hv : bytesVal [byteAt H o, byteAt H (o + 1), byteAt H (o + 2), byteAt H (o + 3)]
      = (((0 * 256 + (byteAt H o).toNat) * 256 + (byteAt H (o + 1)).toNat) * 256
        + (byteAt H (o + 2)).toNat) * 256 + (byteAt H (o + 3)).toNat := rfl
  rw [hv]
  have h0 := (byteAt H o).isLt
  have h1 := (byteAt H (o + 1)).isLt
  have h2 := (byteAt H (o + 2)).isLt
  have h3 := (byteAt H (o + 3)).isLt
  unfold truncBinary
  rw [show 0x7F = 2 ^ 7 - 1 from rfl, show 0xFF = 2 ^ 8 - 1 from rfl, Nat.and_two_pow_sub_one_eq_mod,
    Nat.and_two_pow_sub_one_eq_mod, Nat.and_two_pow_sub_one_eq_mod, Nat.and_two_pow_sub_one_eq_mod,
    Nat.mod_eq_of_lt h1, Nat.mod_eq_of_lt h2, Nat.mod_eq_of_lt h3]
  have e1 : ((byteAt H o).toNat % 2 ^ 7) <<< 24 ||| (byteAt H (o + 1)).toNat <<< 16
      = ((byteAt H o).toNat % 2 ^ 7) * 2 ^ 24 + (byteAt H (o + 1)).toNat * 2 ^ 16 := by
    rw [← Nat.shiftLeft_add_eq_or_of_lt (by rw [Nat.shiftLeft_eq]; omega), Nat.shiftLeft_eq, Nat.shiftLeft_eq]
  have e2 : ((byteAt H o).toNat % 2 ^ 7) * 2 ^ 24 + (byteAt H (o + 1)).toNat * 2 ^ 16
      = ((byteAt H o).toNat % 2 ^ 7 * 2 ^ 8 + (byteAt H (o + 1)).toNat) <<< 16 := by
    rw [Nat.shiftLeft_eq]; ring
  have e3 : ((byteAt H o).toNat % 2 ^ 7 * 2 ^ 8 + (byteAt H (o + 1)).toNat) <<< 16
        ||| (byteAt H (o + 2)).toNat <<< 8
      = ((byteAt H o).toNat % 2 ^ 7 * 2 ^ 16 + (byteAt H (o + 1)).toNat * 2 ^ 8
          + (byteAt H (o + 2)).toNat) <<< 8 := by
    rw [← Nat.shiftLeft_add_eq_or_of_lt (by rw [Nat.shiftLeft_eq]; omega), Nat.shiftLeft_eq,
      Nat.shiftLeft_eq, Nat.shiftLeft_eq]
    ring
  rw [e1, e2, e3, ← Nat.shiftLeft_add_eq_or_of_lt (by omega), Nat.shiftLeft_eq]
  clear e1 e2 e3 hv
  generalize (byteAt H o).toNat = b0 at *
  generalize (byteAt H (o + 1)).toNat = b1 at *
  generalize (byteAt H (o + 2)).toNat = b2 at *
  generalize (byteAt H (o + 3)).toNat = b3 at *
  omega

theorem trunc_eq (H : List Byte) : trunc H = (offsetOf H.length H, binaryOf H.length H) := by
  rw [trunc, truncBinary_eq, truncOffset_eq]
  rfl

theorem offsetOf_lt (L : Nat) (H : List Byte) : offsetOf L H < 16 := Nat.mod_lt _ (by omega)

theorem binaryOf_lt (L : Nat) (H : List Byte) : binaryOf L H < 2 ^ 31 := Nat.mod_lt _ (by omega)

/-! ## The formatter (R91, R92) -/

/-- A digit of `v mod 10^d` is the digit of `v`. -/
theorem fmtCode_digit (v d i : Nat) (hi : i < d) :
    fmtCode v d / 10 ^ (d - 1 - i) % 10 = v / 10 ^ (d - 1 - i) % 10 := by
  unfold fmtCode
  have h : 10 ^ d = 10 ^ (d - 1 - i) * 10 ^ (i + 1) := by rw [← pow_add]; congr 1; omega
  rw [h, Nat.mod_mul_right_div_self, pow_succ', Nat.mod_mul_right_mod]

theorem byteAt_fmtChars (v d i : Nat) (hi : i < d) : byteAt (fmtChars v d) i = digitChar v d i := by
  unfold byteAt
  rw [List.getD_eq_getElem _ _ (by simpa using hi)]
  simp only [fmtChars, List.getElem_map, List.getElem_range]
  rw [fmtCode_digit v d i hi, digitChar]

theorem byteAt_outBytes (ch : List Byte) (d i : Nat) :
    byteAt (outBytes ch d) i = if i < 12 ∧ i < d then byteAt ch i else 0 := by
  by_cases h : i < 12
  · unfold byteAt
    rw [List.getD_eq_getElem _ _ (by simpa using h)]
    simp only [outBytes, List.getElem_map, List.getElem_range, h, true_and]
    rfl
  · rw [byteAt_of_length_le (by simpa using h), if_neg (by tauto)]

theorem fmtCode_lt (v d : Nat) : fmtCode v d < 10 ^ d := Nat.mod_lt _ (by positivity)

theorem fmtCode_le (v d : Nat) : fmtCode v d ≤ v := Nat.mod_le _ _

/-- After `putFmt` the result registers hold the token (R93). -/
theorem holdsToken_of_eq {t : State} {v d : Nat} (hv : v < 2 ^ 31) (hd : d ≤ 10)
    (h1 : t.code = BitVec.ofNat 31 (fmt v d).1) (h2 : t.outlen = BitVec.ofNat 4 d)
    (h3 : t.outc = Memory.ofBytes (outBytes (fmt v d).2 d)) : HoldsToken t v d := by
  have hc := fmtCode_le v d
  refine ⟨?_, ?_, fun i hi => ?_, fun i hi => ?_⟩
  · apply BitVec.eq_of_toNat_eq
    simp only [readReg, h1, fmt, BitVec.toNat_setWidth, BitVec.toNat_ofNat]
    rw [Nat.mod_eq_of_lt (a := fmtCode v d) (by omega)]
    rfl
  · apply BitVec.eq_of_toNat_eq
    simp only [readReg, h2, BitVec.toNat_setWidth, BitVec.toNat_ofNat]
    omega
  · rw [h3, Memory.read_ofBytes, byteAt_outBytes, if_pos (by omega)]
    exact byteAt_fmtChars v d i hi
  · rw [h3, Memory.read_ofBytes, byteAt_outBytes, if_neg (by omega)]

/-! ## Reading results -/

/-- A digest in DIG as a host reads it (R42, R49). -/
theorem readReg_digest_of_eq {t : State} {H : List Byte} (h : t.dig = Memory.ofBytes (H ++ zeros (64 - H.length)))
    (j : Fin 16) : readReg t (.digest j) = packBe (byteAt (H ++ zeros (64 - H.length))) j.val := by
  rw [readReg, h]
  exact packBe_congr fun i _ => Memory.read_ofBytes _ _

theorem readReg_offset_of_eq {t : State} {n : Nat} (hn : n < 16) (h : t.offset = BitVec.ofNat 4 n) :
    readReg t .offset = BitVec.ofNat 32 n := by
  apply BitVec.eq_of_toNat_eq
  simp [readReg, h]
  omega

theorem readReg_binary_of_eq {t : State} {n : Nat} (hn : n < 2 ^ 31) (h : t.binary = BitVec.ofNat 31 n) :
    readReg t .binary = BitVec.ofNat 32 n := by
  apply BitVec.eq_of_toNat_eq
  simp [readReg, h]
  omega

/-! ## The time step (R99, R100) -/

theorem tstep_le {t p : Nat} (ht : t < 2 ^ 64) : tstep t p ≤ 18446744073709551 := by
  unfold tstep
  exact le_trans (Nat.div_le_self _ _) (by omega)

theorem stepOf_toNat (S : Snapshot) : (stepOf S).toNat = S.ts.toNat / 1000 / S.period.toNat := by
  have h := tstep_le (t := timestampOf S) (p := periodOf S) S.ts.isLt
  unfold stepOf
  rw [BitVec.toNat_ofNat, Nat.mod_eq_of_lt (by omega)]
  rfl

/-- The two halves of a 64-bit value denote it (R50). -/
theorem halves_toNat (n : BitVec 64) :
    (n.extractLsb' 32 32).toNat * 2 ^ 32 + (n.extractLsb' 0 32).toNat = n.toNat := by
  have := n.isLt
  simp only [BitVec.extractLsb'_toNat, Nat.shiftRight_eq_div_pow]
  omega

theorem append_halves (n : BitVec 64) : n.extractLsb' 32 32 ++ n.extractLsb' 0 32 = n := by
  apply BitVec.eq_of_toNat_eq
  rw [BitVec.toNat_append, ← Nat.shiftLeft_add_eq_or_of_lt (BitVec.isLt _), Nat.shiftLeft_eq]
  exact halves_toNat n

end Sys2Proof.Machine
end

