-- ==== Sys2Proof/Laws/PerInstr.lean ====
section
/-! SUPPORT. A statement about every command as syntax, one lemma for each constructor: its words have its OP
under the mask of spec/opcode_table.json (30_encoding.md R67). -/

namespace Sys2Proof.Laws

/-- Each field of a word that the mask 0xFFFFF0CF keeps. -/
theorem wordOfFields_and_mask (d : BitVec 4) (a : BitVec 2) (op : BitVec 4) :
    wordOfFields 0 d 0 a op &&& 0xFFFFF0CF#32 = op.setWidth 32 := by
  revert d a op
  decide +kernel

namespace OpUnderMask

/-- Whatever its operands and its ignored fields, a command's word selects its OP under the mask. -/
def Statement (i : Instr) : Prop :=
  ∀ (a : BitVec 2) (d : BitVec 4), encodeWith a d i &&& 0xFFFFF0CF#32 = (opOf i).setWidth 32

theorem nop : Statement .nop := fun _ _ => wordOfFields_and_mask _ _ _
theorem enc : Statement .enc := fun _ _ => wordOfFields_and_mask _ _ _
theorem mac (alg : AlgTag) : Statement (.mac alg) := fun _ _ => wordOfFields_and_mask _ _ _
theorem trunc (alg : AlgTag) (digits : Nat) : Statement (.trunc alg digits) := fun _ _ => wordOfFields_and_mask _ _ _
theorem fmt (digits : Nat) : Statement (.fmt digits) := fun _ _ => wordOfFields_and_mask _ _ _
theorem hotp (alg : AlgTag) (digits : Nat) : Statement (.hotp alg digits) := fun _ _ => wordOfFields_and_mask _ _ _
theorem tstep : Statement .tstep := fun _ _ => wordOfFields_and_mask _ _ _
theorem totp (alg : AlgTag) (digits : Nat) : Statement (.totp alg digits) := fun _ _ => wordOfFields_and_mask _ _ _

end OpUnderMask

end Sys2Proof.Laws
end

