-- ==== Sys2Proof/Laws/Step.lean ====
section
/-! SUPPORT. What a step can do: whose turn it is, one lemma for each event of the host, and the inversion of
a step that answers a next state (20_memory.md R56). -/

namespace Sys2Proof.Machine

/-! ## Turns -/

theorem isBusy_iff {p : Phase} : p.isBusy = true ↔ p = .busy := by cases p <;> simp [Phase.isBusy]

theorem engineMoves_iff {s : State} : engineMoves s = true ↔ EngineMoves s := by
  simp [engineMoves, isBusy_iff]

theorem step_of_engineMoves {s : State} (h : EngineMoves s) : step s = engineStep s := by
  rw [step, if_pos (engineMoves_iff.mpr h)]

theorem step_of_not_engineMoves {s : State} (h : ¬ EngineMoves s) : step s = hostStep s := by
  rw [step, if_neg (fun h' => h (engineMoves_iff.mp h'))]

/-- With an event pending, the host's turn is not the engine's. -/
theorem HostMoves.not_engineMoves {s : State} (h : HostMoves s) (hp : s.pending ≠ []) : ¬ EngineMoves s := by
  rintro ⟨h1, h2⟩
  rcases h with h | h
  · rw [h] at h1; cases h1
  · exact h2.elim h hp

/-- The engine's step in terms of the decoded word (R79). -/
theorem step_of_decode_ok {s : State} {i : Instr} (h : EngineMoves s) (hd : decode s.snap.cmd = .ok i) :
    step s = .next (completeStep i (performOf i) s) := by
  rw [step_of_engineMoves h, engineStep, hd]
  exact exec_eq i s

theorem step_of_decode_error {s : State} {e : IllegalWord} (h : EngineMoves s)
    (hd : decode s.snap.cmd = .error e) : step s = .next (complete .illegalCommand { cmd := true } s) := by
  rw [step_of_engineMoves h, engineStep, hd]
  rfl

/-! ## Host events -/

/-- The offset of an address of the window. -/
theorem windowOffset_base (c : Config) {off : Nat} (h : off < 0x200) :
    windowOffset c (c.otpeBase + off) = some off := by
  rw [windowOffset, if_pos (by omega), Nat.add_sub_cancel_left]

theorem windowOffset_eq_some {c : Config} {addr off : Nat} (h : windowOffset c addr = some off) :
    addr = c.otpeBase + off ∧ off < 0x200 := by
  unfold windowOffset at h
  split at h
  · obtain rfl := Option.some.inj h
    omega
  · cases h

/-- A read of a mapped register. -/
theorem hostStep_read {s : State} {r : Reg} {rest : List BusEvent} (hr : mappedReg s.cfg.keyMaxBytes r)
    (hp : s.pending = .read (s.cfg.otpeBase + r.off) 4 :: rest) :
    hostStep s = .next (deliver (readReg s r) (tick rest s)) := by
  have hw := windowOffset_base s.cfg (off_lt r).1
  simp [hostStep, hp, busRead, hw, memRead, regAt_off hr]

/-- A write to a mapped register. -/
theorem hostStep_write {s : State} {r : Reg} {v : Word} {rest : List BusEvent}
    (hr : mappedReg s.cfg.keyMaxBytes r) (hp : s.pending = .write (s.cfg.otpeBase + r.off) 4 v :: rest) :
    hostStep s = .next (writeReg (tick rest s) r v) := by
  have hw := windowOffset_base s.cfg (off_lt r).1
  simp [hostStep, hp, busWrite, hw, memWrite, regAt_off hr]

theorem step_read {s : State} {r : Reg} {rest : List BusEvent} (hh : HostMoves s)
    (hr : mappedReg s.cfg.keyMaxBytes r) (hp : s.pending = .read (s.cfg.otpeBase + r.off) 4 :: rest) :
    step s = .next (deliver (readReg s r) (tick rest s)) := by
  rw [step_of_not_engineMoves (hh.not_engineMoves (by simp [hp])), hostStep_read hr hp]

theorem step_write {s : State} {r : Reg} {v : Word} {rest : List BusEvent} (hh : HostMoves s)
    (hr : mappedReg s.cfg.keyMaxBytes r) (hp : s.pending = .write (s.cfg.otpeBase + r.off) 4 v :: rest) :
    step s = .next (writeReg (tick rest s) r v) := by
  rw [step_of_not_engineMoves (hh.not_engineMoves (by simp [hp])), hostStep_write hr hp]

theorem step_poll {s : State} {rest : List BusEvent} (hh : HostMoves s) (hp : s.pending = .poll :: rest) :
    step s = .next (pollStatus rest s) := by
  rw [step_of_not_engineMoves (hh.not_engineMoves (by simp [hp]))]
  simp [hostStep, hp]

theorem step_reset {s : State} {rest : List BusEvent} (hh : HostMoves s) (hp : s.pending = .reset :: rest) :
    step s = .next (resetBlock (tick rest s)) := by
  rw [step_of_not_engineMoves (hh.not_engineMoves (by simp [hp]))]
  simp [hostStep, hp]

/-! ## Inversion -/

/-- A burst always faults (R51). -/
theorem busBurst_ne_next (addr : Nat) (s t : State) : busBurst addr s ≠ .next t := by
  unfold busBurst
  split <;> simp

/-- A burst that starts in the window is a BusError (R51, R107). -/
theorem busBurst_of_lt {s : State} {off : Nat} (h : off < 0x200) :
    busBurst (s.cfg.otpeBase + off) s = .fault (.busError off) := by
  simp [busBurst, windowOffset_base s.cfg h]

/-- Everything a host event can do when it does not fault. -/
theorem hostStep_cases {s t : State} (h : hostStep s = .next t) :
    (s.pending = [] ∧ t = s) ∨
    (∃ r rest, s.pending = .read (s.cfg.otpeBase + r.off) 4 :: rest ∧ mappedReg s.cfg.keyMaxBytes r ∧
      t = deliver (readReg s r) (tick rest s)) ∨
    (∃ r v rest, s.pending = .write (s.cfg.otpeBase + r.off) 4 v :: rest ∧ mappedReg s.cfg.keyMaxBytes r ∧
      t = writeReg (tick rest s) r v) ∨
    (∃ rest, s.pending = .poll :: rest ∧ t = pollStatus rest s) ∨
    (∃ rest, s.pending = .reset :: rest ∧ t = resetBlock (tick rest s)) := by
  unfold hostStep at h
  split at h
  · rename_i hp
    cases h
    exact .inl ⟨hp, rfl⟩
  · rename_i addr size rest hp
    unfold busRead at h
    split at h
    · cases h
    · rename_i off hoff
      obtain ⟨rfl, -⟩ := windowOffset_eq_some hoff
      unfold memRead at h
      split at h
      · cases h
      · rename_i v hv
        split at hv
        · rename_i hsz
          obtain ⟨r, hr, rfl⟩ := Option.map_eq_some_iff.mp hv
          obtain ⟨hm, rfl⟩ := off_of_regAt hr
          cases h
          exact .inr (.inl ⟨r, rest, by rw [hp, hsz]; rfl, hm, by simp⟩)
        · cases hv
  · rename_i addr size v rest hp
    unfold busWrite at h
    split at h
    · cases h
    · rename_i off hoff
      obtain ⟨rfl, -⟩ := windowOffset_eq_some hoff
      unfold memWrite at h
      split at h
      · cases h
      · rename_i u hu
        split at hu
        · rename_i hsz
          obtain ⟨r, hr, rfl⟩ := Option.map_eq_some_iff.mp hu
          obtain ⟨hm, rfl⟩ := off_of_regAt hr
          cases h
          exact .inr (.inr (.inl ⟨r, v, rest, by rw [hp, hsz]; rfl, hm, rfl⟩))
        · cases hu
  · exact absurd h (busBurst_ne_next _ _ _)
  · exact absurd h (busBurst_ne_next _ _ _)
  · rename_i rest hp
    cases h
    exact .inr (.inr (.inr (.inl ⟨rest, hp, rfl⟩)))
  · rename_i rest hp
    cases h
    exact .inr (.inr (.inr (.inr ⟨rest, hp, rfl⟩)))

/-- Everything a step can do when it answers a next state. -/
theorem step_cases {s t : State} (h : step s = .next t) :
    (EngineMoves s ∧ ∃ i, decode s.snap.cmd = .ok i ∧ t = completeStep i (performOf i) s) ∨
    (EngineMoves s ∧ (∃ e, decode s.snap.cmd = .error e) ∧ t = complete .illegalCommand { cmd := true } s) ∨
    (¬ EngineMoves s ∧ hostStep s = .next t) := by
  by_cases he : EngineMoves s
  · cases hd : decode s.snap.cmd with
    | ok i =>
      rw [step_of_decode_ok he hd] at h
      cases h
      exact .inl ⟨he, i, rfl, rfl⟩
    | error e =>
      rw [step_of_decode_error he hd] at h
      cases h
      exact .inr (.inl ⟨he, ⟨e, rfl⟩, rfl⟩)
  · rw [step_of_not_engineMoves he] at h
    exact .inr (.inr ⟨he, h⟩)

/-- A run of `k + 1` steps from a state that steps to `t`. -/
theorem run_succ {s t : State} (h : step s = .next t) (k : Nat) : core.run (k + 1) s = core.run k t := by
  simp [Host.Core.run, show core.step s = .next t from h]

/-! ## Register writes -/

/-- A host write to a register leaves the parameters, what is outside, and the snapshot and phase alone,
but for an accepted command. -/
@[simp] theorem writeReg_cfg (s : State) (r : Reg) (v : Word) : (writeReg s r v).cfg = s.cfg := by
  cases r with
  | cmd => simp only [writeReg, issue]; cases s.phase <;> rfl
  | _ => rfl

@[simp] theorem writeReg_pending (s : State) (r : Reg) (v : Word) :
    (writeReg s r v).pending = s.pending := by
  cases r with
  | cmd => simp only [writeReg, issue]; cases s.phase <;> rfl
  | _ => rfl

@[simp] theorem writeReg_reads (s : State) (r : Reg) (v : Word) : (writeReg s r v).reads = s.reads := by
  cases r with
  | cmd => simp only [writeReg, issue]; cases s.phase <;> rfl
  | _ => rfl

@[simp] theorem writeReg_maccnt (s : State) (r : Reg) (v : Word) : (writeReg s r v).maccnt = s.maccnt := by
  cases r with
  | cmd => simp only [writeReg, issue]; cases s.phase <;> rfl
  | _ => rfl

/-- A host write while a command is in flight leaves it and its snapshot alone (R74, R75). -/
theorem writeReg_busy {s : State} (h : s.phase = .busy) (r : Reg) (v : Word) :
    (writeReg s r v).snap = s.snap ∧ (writeReg s r v).phase = .busy ∧ (writeReg s r v).cmd = s.cmd ∧
      (writeReg s r v).delay = s.delay := by
  cases r <;> simp [writeReg, issue, h]

/-- A host write leaves every result register alone (R23, R34 to R41). -/
theorem readReg_writeReg_readOnly (s : State) (r r' : Reg) (v : Word) (h : readOnlyReg r' = true) :
    readReg (writeReg s r v) r' = readReg s r' := by
  cases r with
  | cmd =>
    simp only [writeReg, issue]
    cases s.phase <;> (cases r' <;> first | rfl | simp [readOnlyReg] at h)
  | _ => cases r' <;> first | rfl | simp [readOnlyReg] at h

end Sys2Proof.Machine
end

