-- ==== Sys2Proof/Tests/Slice0.lean ====
section
/-! SUPPORT. Tests: expected values are the spec's (30_encoding.md, 95_test_vectors.md; the row of each is
named), and witnesses that the hypotheses of the statements can be met. -/

namespace Sys2Proof.Tests

open Sys2Proof Sys2Proof.Machine

/- One theorem at a time: many at once exhaust the check's threads. -/
set_option Elab.async false

/-! ## Helpers -/

/-- A snapshot for the word `w`, with PERIOD at its reset value. -/
def snapOf (w : Word) : Snapshot := { Snapshot.discarded with cmd := w, period := 30 }

/-- A command in flight, its latency run out, on the snapshot `S`. -/
def flight (S : Snapshot) : State := { State.reset with phase := .busy, snap := S, cmd := S.cmd, keylen := S.keylen }

/-- The host's next event is `e`. -/
def host (e : BusEvent) (s : State) : State := { s with pending := e :: s.pending }

/-- What the registers `rs` read as after one step; nothing if the step stops. -/
def after (s : State) (rs : List Reg) : List Word :=
  match step s with
  | .next t => rs.map (readReg t)
  | .fault _ => []
  | .refused _ => []

/-- The fault of one step, if it faults. -/
def faultOf (s : State) : Option Fault :=
  match step s with
  | .next _ => none
  | .fault f => some f
  | .refused _ => none

/-- "12345678901234567890" in ASCII. -/
def key20 : List Byte := bytesBe 20 0x3132333435363738393031323334353637383930

/-- "12345678901234567890123456789012" in ASCII. -/
def key32 : List Byte := key20 ++ key20.take 12

/-- `w` in flight with the secret `K`. -/
def keyed (w : Word) (K : List Byte) : Snapshot :=
  { snapOf w with key := Memory.ofBytes K, keylen := BitVec.ofNat 9 K.length }

/-- The bytes 0x00, 0x01, ... -/
def counting (n : Nat) : List Byte := (List.range n).map fun i => BitVec.ofNat 8 i

/-! ## Well-formedness: an ill-formed term for each check (R64) -/

theorem test_wf_trunc_16 : Instr.wf (.trunc (some .sha1) 16) = false := by decide
theorem test_wf_fmt_16 : Instr.wf (.fmt 16) = false := by decide
theorem test_wf_hotp_16 : Instr.wf (.hotp none 16) = false := by decide
theorem test_wf_totp_16 : Instr.wf (.totp (some .sha512) 16) = false := by decide
theorem test_wf_totp_15 : Instr.wf (.totp (some .sha512) 15) = true := by decide
theorem test_cfg_60 : ¬ Config.wf { keyMaxBytes := 60, otpeBase := 0 } := by decide
theorem test_cfg_66 : ¬ Config.wf { keyMaxBytes := 66, otpeBase := 0 } := by decide
theorem test_cfg_260 : ¬ Config.wf { keyMaxBytes := 260, otpeBase := 0 } := by decide

/-! ## Decoding: words written out from R62 to R66 (OP 3:0, ALG 5:4, RES0 7:6, DIGITS 11:8, RES1 31:12) -/

theorem test_decode_nop : decode 0b00000000000000000000_0000_00_00_0000 = .ok .nop := by rfl
theorem test_decode_enc : decode 0b00000000000000000000_0000_00_00_0001 = .ok .enc := by rfl
theorem test_decode_enc_ignored : decode 0b00000000000000000000_1111_00_11_0001 = .ok .enc := by rfl
theorem test_decode_mac : decode 0b00000000000000000000_0000_00_10_0010 = .ok (.mac (some .sha512)) := by rfl
theorem test_decode_trunc : decode 0b00000000000000000000_1010_00_01_0011 = .ok (.trunc (some .sha256) 10) := by rfl
theorem test_decode_fmt : decode 0b00000000000000000000_0111_00_00_0100 = .ok (.fmt 7) := by rfl
theorem test_decode_hotp : decode 0b00000000000000000000_0110_00_00_0101 = .ok (.hotp (some .sha1) 6) := by rfl
theorem test_decode_hotp_alg3 : decode 0b00000000000000000000_0110_00_11_0101 = .ok (.hotp none 6) := by rfl
theorem test_decode_tstep : decode 0b00000000000000000000_0000_00_11_0110 = .ok .tstep := by rfl
theorem test_decode_totp : decode 0b00000000000000000000_1000_00_10_0111 = .ok (.totp (some .sha512) 8) := by rfl
theorem test_decode_op8 : decode 0b00000000000000000000_0000_00_00_1000 = .error .reservedOp := by rfl
theorem test_decode_res0 : decode 0b00000000000000000000_0000_10_00_0000 = .error .reservedField := by rfl
theorem test_decode_res1 : decode 0b10000000000000000000_0000_00_00_0101 = .error .reservedField := by rfl

/-- R70: `hotp sha1, 6` assembles to 0x00000605, with ignored fields 0. -/
theorem test_encode_hotp : encode (.hotp (some .sha1) 6) = 0x00000605 := by decide
theorem test_encode_fmt : encode (.fmt 8) = 0x00000804 := by decide

theorem test_table_word : decodeTableWord 32 0x00000807 = some (.totp (some .sha1) 8) := by rfl

/-! ## The hash functions: 95_test_vectors.md section 2 -/

theorem test_sha1_abc : sha1 [0x61, 0x62, 0x63] = bytesBe 20 0xa9993e364706816aba3e25717850c26c9cd0d89d := by
  decide +kernel
theorem test_sha1_empty : sha1 [] = bytesBe 20 0xda39a3ee5e6b4b0d3255bfef95601890afd80709 := by decide +kernel
theorem test_sha256_abc : sha256 [0x61, 0x62, 0x63]
    = bytesBe 32 0xba7816bf8f01cfea414140de5dae2223b00361a396177a9cb410ff61f20015ad := by decide +kernel
theorem test_sha256_empty : sha256 []
    = bytesBe 32 0xe3b0c44298fc1c149afbf4c8996fb92427ae41e4649b934ca495991b7852b855 := by decide +kernel
theorem test_sha512_abc : sha512 [0x61, 0x62, 0x63] = bytesBe 64
    0xddaf35a193617abacc417349ae20413112e6fa4e89a97ea20a9eeee64b55d39a2192992a274fc1a836ba3c23a3feebbd454d4423643ce80e2a9ac94fa54ca49f := by
  decide +kernel
theorem test_sha512_empty : sha512 [] = bytesBe 64
    0xcf83e1357eefb8bdf1542850d66d8007d620e4050b5715dc83f4a921d36ce9ce47d0d13c5d85f2b0ff8318d2877eec2f63b931bd47417a81a538327af927da3e := by
  decide +kernel

/-- Key 0x0B ×20, "Hi There". -/
theorem test_hmac_sha1 : hmac .sha1 (rep 0x0B 20) (bytesBe 8 0x4869205468657265)
    = bytesBe 20 0xb617318655057264e28bc0b6fb378c8ef146be00 := by decide +kernel
/-- Key "Jefe", "what do ya want for nothing?". -/
theorem test_hmac_sha256 : hmac .sha256 (bytesBe 4 0x4a656665)
      (bytesBe 28 0x7768617420646f2079612077616e7420666f72206e6f7468696e673f)
    = bytesBe 32 0x5bdcc146bf60754e6a042426089575c75a003f089d2739839dec58b964ec3843 := by decide +kernel
theorem test_hmac_sha512 : hmac .sha512 (bytesBe 4 0x4a656665)
      (bytesBe 28 0x7768617420646f2079612077616e7420666f72206e6f7468696e673f) = bytesBe 64
    0x164b7a7bfcf819e2e395fbe73b56e0a387bd64222e831fd610270cd7ea2505549758bf75c05a994a6d034f65f8f0e6fdcaeab1a34d4a6b4b636e070a38bce737 := by
  decide +kernel

/-! ## Commands: 95_test_vectors.md section 3 -/

/-- V18: `nop` after a failing command clears ERRCODE and EF_*. -/
theorem test_nop_v18 : after { flight (snapOf 0x0) with errcode := .invalidDigits, ef := { digits := true } }
    [.status] = [0x00000002] := by decide +kernel
/-- E3. -/
theorem test_enc_e3 : after (flight { snapOf 0x1 with ctr := 0x0123456789ABCDEF }) [.msgHi, .msgLo, .status]
    = [0x01234567, 0x89ABCDEF, 0x00000002] := by decide +kernel
/-- E7: ignored fields. -/
theorem test_enc_e7 : after (flight { snapOf 0xF31 with ctr := 5 }) [.msgHi, .msgLo, .status]
    = [0x00000000, 0x00000005, 0x00000002] := by decide +kernel
/-- M1. -/
theorem test_mac_m1 : after (flight (keyed 0x2 key20))
    [.digest 0, .digest 1, .digest 2, .digest 3, .digest 4, .digest 5, .maccnt, .keylen, .status]
    = [0xCC93CF18, 0x508D9493, 0x4C64B65D, 0x8BA7667F, 0xB7CDE4B0, 0, 1, 0, 0x00000002] := by decide +kernel
/-- M4: rejected, and the key is not wiped. -/
theorem test_mac_m4 : after (flight (keyed 0x32 key20)) [.digest 0, .maccnt, .keylen, .status]
    = [0, 0, 20, 0x00000842] := by decide +kernel
/-- T6: offset 15, and bit 31 is masked. -/
theorem test_trunc_t6 : after (flight { snapOf 0x603 with dig := [(15, 0x80), (18, 0x01), (19, 0x0F)] })
    [.offset, .binary, .code, .outlen, .out 0, .out 1, .maccnt, .status]
    = [15, 1, 1, 6, 0x30303030, 0x30310000, 0, 0x00000002] := by decide +kernel
/-- T8: two failing checks, DIGITS first. -/
theorem test_trunc_t8 : after (flight { snapOf 0x33 with dig := [(19, 0x0F)] }) [.offset, .outlen, .status]
    = [0, 0, 0x00000912] := by decide +kernel
/-- F7. -/
theorem test_fmt_f7 : after (flight { snapOf 0xA04 with value := 1284755224 })
    [.code, .outlen, .out 0, .out 1, .out 2, .status]
    = [1284755224, 10, 0x31323834, 0x37353532, 0x32340000, 0x00000002] := by decide +kernel
/-- F12. -/
theorem test_fmt_f12 : after (flight { snapOf 0xB04 with value := 7 }) [.code, .outlen, .out 0, .status]
    = [0, 0, 0, 0x00000112] := by decide +kernel
/-- Section 1.1, counter 1. -/
theorem test_hotp_row1 : after (flight { keyed 0x605 key20 with ctr := 1 })
    [.msgLo, .digest 4, .offset, .binary, .code, .outlen, .out 0, .out 1, .maccnt, .keylen, .status]
    = [1, 0x7A2D33AB, 11, 1094287082, 287082, 6, 0x32383730, 0x38320000, 1, 0, 0x00000002] := by decide +kernel
/-- H9: a key longer than the block. -/
theorem test_hotp_h9 : after (flight (keyed 0x605 (counting 65))) [.offset, .binary, .out 0, .out 1]
    = [10, 188337508, 0x33333735, 0x30380000] := by decide +kernel
/-- S7. -/
theorem test_tstep_s7 : after (flight { snapOf 0x6 with ts := 0xFFFFFFFFFFFFFFFF, period := 1 })
    [.tstepHi, .tstepLo, .status] = [0x00418937, 0x4BC6A7EF, 0x00000002] := by decide +kernel
/-- S11. -/
theorem test_tstep_s11 : after (flight { snapOf 0x6 with ts := 59000, period := 0 })
    [.tstepHi, .tstepLo, .status] = [0, 0, 0x00000222] := by decide +kernel
/-- Section 1.2, SHA256. -/
theorem test_totp_sha256 : after (flight { keyed 0x817 key32 with ts := 59000 })
    [.tstepHi, .tstepLo, .msgLo, .offset, .binary, .out 0, .out 1, .keylen, .status]
    = [0, 1, 1, 12, 746119246, 0x34363131, 0x39323436, 0, 0x00000002] := by decide +kernel
/-- V7: every check of TOTP fails. -/
theorem test_totp_v7 : after (flight { snapOf 0x37 with period := 0, keylen := 300 }) [.keylen, .status]
    = [300, 0x00001B12] := by decide +kernel
/-- V16 and V17: an illegal word, which no other check looks at. -/
theorem test_illegal_v16 : after (flight (snapOf 0xFFFFFFFF)) [.cmd, .status] = [0xFFFFFFFF, 0x00002062] := by
  decide +kernel
theorem test_illegal_v17 : after (flight { snapOf 0x4037 with period := 0, keylen := 300 }) [.cmd, .status]
    = [0x00004037, 0x00002062] := by decide +kernel

/-! ## Host accesses: 95_test_vectors.md sections 3.1, 3.9 and 3.10 -/

/-- Z1, Z2 and Z4. -/
theorem test_reset_reads : [Reg.id, .cap, .period, .status].map (readReg State.reset)
    = [0x4F545001, 0x0007A100, 0x0000001E, 0] := by decide +kernel
/-- Z3. -/
theorem test_cap_64 : capWord 64 = 0x0007A040 := by decide +kernel
/-- Z7. -/
theorem test_reset_in_flight : after { host .reset (flight (keyed 0x605 key20)) with delay := 3 } [.status, .keylen]
    = [0, 0] := by decide +kernel
/-- B1 to B4. -/
theorem test_bus_hole : faultOf (host (.read 0x060 4) State.reset) = some (.busError 0x060) := by decide +kernel
theorem test_bus_hole2 : faultOf (host (.read 0x0C0 4) State.reset) = some (.busError 0x0C0) := by decide +kernel
theorem test_bus_misaligned : faultOf (host (.write 0x102 4 0) State.reset) = some (.busError 0x102) := by
  decide +kernel
theorem test_bus_width : faultOf (host (.read 0x000 2) State.reset) = some (.busError 0x000) := by decide +kernel
/-- R51: a burst is never merged, not even one of two 16-bit beats, nor one of one 32-bit beat. -/
theorem test_bus_read_burst : faultOf (host (.readBurst 0x000 2 2) State.reset) = some (.busError 0x000) := by
  decide +kernel
theorem test_bus_write_burst : faultOf (host (.writeBurst 0x014 4 [20]) State.reset) = some (.busError 0x014) := by
  decide +kernel
/-- B5. -/
theorem test_bus_key_tail :
    faultOf (host (.write 0x140 4 0) { State.reset with cfg := { keyMaxBytes := 64, otpeBase := 0 } })
      = some (.busError 0x140) := by decide +kernel
/-- B6: KEY16 holds key bytes 64 to 67. -/
theorem test_bus_key16 : step (host (.write 0x140 4 0x31323334) State.reset)
    = .next { State.reset with key := [(64, 0x31), (65, 0x32), (66, 0x33), (67, 0x34)] } := by rfl
/-- B8 and B9. -/
theorem test_bus_keylen : after (host (.write 0x014 4 0xFFFFFFFF) State.reset) [.keylen] = [0x000001FF] := by
  decide +kernel
theorem test_bus_ctrl : after (host (.write 0x008 4 0xFFFFFFFF) State.reset) [.ctrl] = [0x00000001] := by
  decide +kernel
/-- B11. -/
theorem test_bus_status : after (host (.write 0x00C 4 0xFFFFFFFF)
    { State.reset with done := true, ovr := true, errcode := .illegalCommand, ef := { cmd := true } }) [.status]
    = [0x00002060] := by decide +kernel
/-- W3: the second CMD write is dropped. -/
theorem test_overrun_w3 : after { host (.write 0x010 4 0) (flight (keyed 0x605 key20)) with delay := 2 }
    [.cmd, .status] = [0x00000605, 0x00000005] := by decide +kernel

/-- R70 and 95_test_vectors.md: the text of a command line. -/
theorem test_text_hotp : (CmdLine.asm (.hotp (some .sha1) 6)).text = "hotp sha1, 6" := by decide +kernel
theorem test_text_cmd : (CmdLine.raw 0x00004037).text = ".cmd 0x00004037" := by decide +kernel

/-- key20 loads as the five words of 95_test_vectors.md, and KEYLEN 20. -/
theorem test_loadkey : loadkey key20 = [.wr (.key 0) 0x31323334, .wr (.key 1) 0x35363738,
    .wr (.key 2) 0x39303132, .wr (.key 3) 0x33343536, .wr (.key 4) 0x37383930, .wr .keylen 20] := by
  decide +kernel

theorem test_reset_memory : Memory.wf State.reset.key ∧ Memory.wf State.reset.dig ∧ Memory.wf State.reset.outc := by
  decide

/-! ## Witnesses: concrete states and operands that meet the hypotheses of the statements -/

/-- A command in flight whose latency has not run out, with the host's next event `e`. -/
def waiting (w : Word) (e : BusEvent) : State := { host e (flight (snapOf w)) with delay := 2 }

/-- The tail of a pending list of one event. -/
def noMore : List BusEvent := []

theorem test_wit_DecodeOfEncode : Instr.wf (.trunc none 15) = true ∧ Instr.wf .nop = true ∧ Instr.wf (.fmt 0) = true := by
  decide
theorem test_wit_EncodeOfDecode : decode 0x00000F31 = .ok .enc := by rfl
theorem test_wit_DecodeFollows :
    (0xC0 : Word).toNat / 64 % 4 ≠ 0 ∧ (0x1000 : Word).toNat / 4096 ≠ 0 ∧ 8 ≤ (0x8 : Word).toNat % 16 ∧
    (0xF37 : Word).toNat / 64 % 4 = 0 ∧ (0xF37 : Word).toNat / 4096 = 0 ∧ (0xF37 : Word).toNat % 16 = 7 ∧
    (0xF30 : Word).toNat % 16 = 0 := by decide
theorem test_wit_StepRuns : EngineMoves (flight (keyed 0x605 key20)) ∧
    decode (flight (keyed 0x605 key20)).snap.cmd = .ok (.hotp (some .sha1) 6) := ⟨by decide, rfl⟩
theorem test_wit_FetchedWord : Instr.wf (.totp (some .sha512) 10) = true := by decide
theorem test_wit_EveryCompletion : EngineMoves (flight (snapOf 0x605)) ∧
    EngineMoves { flight (snapOf 0xFFFFFFFF) with delay := 7 } := by decide
theorem test_wit_IllegalWord : EngineMoves (flight (snapOf 0x8)) ∧ 8 ≤ (0x8 : Word).toNat % 16 ∧
    (0x40 : Word).toNat / 64 % 4 ≠ 0 ∧ (0x1000 : Word).toNat / 4096 ≠ 0 := by decide
theorem test_wit_Accept : (host (.write 0x010 4 0x605) State.reset).phase = .idle ∧
    (host (.write 0x010 4 0x605) State.reset).pending
      = .write ((host (.write 0x010 4 0x605) State.reset).cfg.otpeBase + 0x010) 4 0x605 :: noMore := by decide
theorem test_wit_Drop : (waiting 0x605 (.write 0x010 4 0)).phase = .busy ∧ (waiting 0x605 (.write 0x010 4 0)).delay ≠ 0 ∧
    (waiting 0x605 (.write 0x010 4 0)).pending
      = .write ((waiting 0x605 (.write 0x010 4 0)).cfg.otpeBase + 0x010) 4 0 :: noMore := by decide
theorem test_wit_HostWrites : (waiting 0x605 (.write 0x1FC 4 9)).phase = .busy ∧ (waiting 0x605 (.write 0x1FC 4 9)).delay ≠ 0 ∧
    mappedReg (waiting 0x605 (.write 0x1FC 4 9)).cfg.keyMaxBytes (.key 63) ∧
    (waiting 0x605 (.write 0x1FC 4 9)).pending
      = .write ((waiting 0x605 (.write 0x1FC 4 9)).cfg.otpeBase + Reg.off (.key 63)) 4 9 :: noMore :=
  ⟨by decide, by decide, by show 4 * 63 < 256; decide, by decide⟩
/-- Two different states with one snapshot, on which ENC leaves no error. -/
theorem test_wit_SnapshotAlone :
    (flight (snapOf 0x1)).snap = { flight (snapOf 0x1) with msgHi := 7, keylen := 9, maccnt := 4 }.snap ∧
    (flight (snapOf 0x1)).cfg = { flight (snapOf 0x1) with msgHi := 7, keylen := 9, maccnt := 4 }.cfg ∧
    after (flight (snapOf 0x1)) [.status] = [0x2] ∧ writesReg .enc .msgHi = true := by decide +kernel
theorem test_wit_Mac : (flight (keyed 0x2 (zeros 256))).snap.keylen.toNat = 256 ∧
    (flight (keyed 0x2 (zeros 256))).snap.keylen.toNat ≤ (flight (keyed 0x2 (zeros 256))).cfg.keyMaxBytes := by
  decide +kernel
theorem test_wit_Digits : 1 ≤ 1 ∧ 1 ≤ 10 ∧ 1 ≤ 10 ∧ 10 ≤ 10 := by decide
theorem test_wit_Hotp : 1 ≤ 6 ∧ 6 ≤ 10 ∧
    (flight (keyed 0x605 key20)).snap.keylen.toNat ≤ (flight (keyed 0x605 key20)).cfg.keyMaxBytes := by decide
theorem test_wit_Tstep : (flight { snapOf 0x6 with period := 1 }).snap.period ≠ 0 := by decide
theorem test_wit_Totp : 1 ≤ 8 ∧ 8 ≤ 10 ∧ (flight (keyed 0x807 key20)).snap.period ≠ 0 ∧
    (flight (keyed 0x807 key20)).snap.keylen.toNat ≤ (flight (keyed 0x807 key20)).cfg.keyMaxBytes := by decide
theorem test_wit_Errcode : EngineMoves (flight { snapOf 0x37 with period := 0, keylen := 300 }) := by decide
/-- One witness for each check that fails, and a completion step that leaves an error code. -/
theorem test_wit_Rejected : (digitsUsed (.fmt 11) = some 11 ∧ ¬ (1 ≤ 11 ∧ 11 ≤ 10)) ∧
    (usesPeriod .tstep = true ∧ (flight { snapOf 0x6 with period := 0 }).snap.period = 0) ∧
    algUsed (.mac none) = some none ∧
    (usesKey (.mac (some .sha1)) = true ∧
      State.reset.cfg.keyMaxBytes < (flight { snapOf 0x2 with keylen := 257 }).snap.keylen.toNat) ∧
    EngineMoves (flight (snapOf 0x8)) ∧ after (flight (snapOf 0x8)) [.status] = [0x2062] := by decide +kernel
theorem test_wit_Successful : errCodeOf (checks (.totp (some .sha1) 8) 256 (keyed 0x807 key20)) = .none ∧
    errCodeOf (checks (.fmt 8) 256 (snapOf 0x804)) = .none ∧ usesKey (.fmt 8) = false := by decide
/-- HOTP that succeeds, ENC that succeeds, and HOTP that fails. -/
theorem test_wit_KeyIsWiped : EngineMoves (flight (keyed 0x605 key20)) ∧ (0x605 : Word).toNat % 16 = 5 ∧
    after (flight (keyed 0x605 key20)) [.status] = [0x2] ∧
    EngineMoves (flight (keyed 0x1 key20)) ∧ (0x1 : Word).toNat % 16 = 1 ∧
    after (flight (keyed 0x1 key20)) [.status] = [0x2] ∧
    EngineMoves (flight (keyed 0x5 key20)) ∧ after (flight (keyed 0x5 key20)) [.status] = [0x112] := by
  decide +kernel
theorem test_wit_NextCommand : usesKey (.hotp (some .sha1) 6) = true ∧
    errCodeOf (checks (.hotp (some .sha1) 6) (flight (keyed 0x605 key20)).cfg.keyMaxBytes
      (flight (keyed 0x605 key20)).snap) = .none := by decide
/-- A host step that is no reset, and a reset. -/
theorem test_wit_Maccnt : (∃ t, step (host .poll State.reset) = .next t) ∧ ¬ EngineMoves (host .poll State.reset) ∧
    (host .poll State.reset).pending = .poll :: noMore ∧
    (∃ t, step (host .reset State.reset) = .next t) ∧ ¬ EngineMoves (host .reset State.reset) ∧
    (host .reset State.reset).pending = .reset :: noMore :=
  ⟨⟨_, rfl⟩, by decide, rfl, ⟨_, rfl⟩, by decide, rfl⟩
theorem test_wit_Buffer : Memory.wf [(3, 0x01), (4, 0xFF)] := by decide
theorem test_wit_HmacKey : blockLen .sha1 < (counting 65).length ∧ (counting 60).length + 4 ≤ blockLen .sha1 ∧
    (counting 0).length + 128 ≤ blockLen .sha512 := by decide
theorem test_wit_Truncation : 20 ≤ (zeros 20).length := by decide
theorem test_wit_Formatter : 2147483647 < 2 ^ 31 ∧ 1 ≤ 10 ∧ 10 ≤ 10 ∧ 0 < 2 ^ 31 ∧ 1 ≤ 1 ∧ 1 ≤ 10 := by decide
theorem test_wit_TimeStep : 1 ≤ 1 ∧ 2 ^ 64 - 1 < 2 ^ 64 ∧ 59999 ≤ 60000 := by decide
theorem test_wit_OtherAccesses : HostMoves (host (.read 0x1FC 4) State.reset) ∧ 0x1FC < 0x200 ∧ mappedOffset 256 0x1FC ∧
    mappedOffset 256 0 ∧ mappedOffset 64 0x13C ∧ ¬ mappedOffset 64 0x140 ∧ ¬ mappedOffset 256 0x060 ∧
    ¬ mappedOffset 256 0x0FC ∧ ¬ mappedOffset 256 0x001 ∧ ¬ (2 = 4 ∧ mappedOffset 256 0) ∧
    (host (.read 0x1FC 4) State.reset).pending
      = .read ((host (.read 0x1FC 4) State.reset).cfg.otpeBase + 0x1FC) 4 :: noMore := by
  simp only [mappedOffset]
  decide
theorem test_wit_Bursts : HostMoves (host (.readBurst 0x1FC 1 4) State.reset) ∧
    (host (.readBurst 0x1FC 1 4) State.reset).pending
      = .readBurst ((host (.readBurst 0x1FC 1 4) State.reset).cfg.otpeBase + 0x1FC) 1 4 :: noMore ∧
    HostMoves (host (.writeBurst 0x000 4 [1, 2]) State.reset) ∧
    (host (.writeBurst 0x000 4 [1, 2]) State.reset).pending
      = .writeBurst ((host (.writeBurst 0x000 4 [1, 2]) State.reset).cfg.otpeBase + 0x000) 4 [1, 2] :: noMore ∧
    (host (.writeBurst 0x200 4 [1, 2]) State.reset).pending = .writeBurst 0x200 4 [1, 2] :: noMore := by decide
/-- Just above the window, and just below a window that lies at 0x1000. -/
theorem test_wit_Outside : HostMoves (host (.read 0x200 4) State.reset) ∧ State.reset.cfg.otpeBase + 0x200 ≤ 0x200 ∧
    (host (.read 0x200 4) State.reset).pending = .read 0x200 4 :: noMore ∧
    0xFFF < { State.reset with cfg := { keyMaxBytes := 64, otpeBase := 0x1000 } }.cfg.otpeBase := by decide
theorem test_wit_Reads : HostMoves (host (.read 0x100 4) State.reset) ∧ mappedReg 256 (.key 0) ∧
    (host (.read 0x100 4) State.reset).pending
      = .read ((host (.read 0x100 4) State.reset).cfg.otpeBase + Reg.off (.key 0)) 4 :: noMore :=
  ⟨by decide, by show 4 * 0 < 256; decide, by decide⟩

/-- A state that is not the reset state and meets the invariant: HOTP in flight, with a key, a digest and a
token of an earlier command. -/
def busyState (e : BusEvent) : State :=
  { host e (flight (keyed 0x605 key20)) with
    delay := 2, key := [(0, 0x31), (255, 0x07)], dig := [(63, 0x0F)], errcode := .none
    code := 42, outlen := 3, outc := [(0, 0x30), (1, 0x34), (2, 0x32)], tstepLo := 7 }

theorem test_wit_Inv (e : BusEvent) : Inv (busyState e) := by
  have hk : bufferWf 256 (Memory.ofBytes key20) := by decide
  have rest : ∀ i, 3 ≤ i → Memory.read [(0, 0x30), (1, 0x34), (2, 0x32)] i = 0 := by
    intro i hi
    simp only [Memory.read_cons, Memory.read_nil]
    rw [if_neg (by omega), if_neg (by omega), if_neg (by omega)]
  have chars : ∀ i < 3, Memory.read [(0, 0x30), (1, 0x34), (2, 0x32)] i = digitChar 42 3 i := by decide
  exact
    { cfg := by show Config.wf Config.reference; decide
      key := by show bufferWf 256 [(0, 0x31), (255, 0x07)]; decide
      dig := by show bufferWf 64 [(63, 0x0F)]; decide
      outc := by show bufferWf 12 [(0, 0x30), (1, 0x34), (2, 0x32)]; decide
      snapKey := fun _ => hk
      snapDig := fun _ => ⟨Memory.wf_nil, by intro c hc; cases hc⟩
      snapCmd := fun _ => rfl
      busyDone := fun _ => rfl
      busyFlags := fun _ => rfl
      errcode := rfl
      counter := rfl
      cmdAlone := by intro h; cases h
      outlen := by show (3 : BitVec 4).toNat ≤ 10; decide
      code := by show (42 : BitVec 31).toNat < 10 ^ (3 : BitVec 4).toNat; decide
      chars := chars
      rest := rest
      tstep := by show ((0 : Word) ++ (7 : Word)).toNat ≤ 18446744073709551; decide }

theorem test_wit_Writable : HostMoves (busyState (.write 0x080 4 9)) ∧ storedBits (.digest 0) = some 0xFFFFFFFF ∧
    (busyState (.write 0x080 4 9)).pending
      = .write ((busyState (.write 0x080 4 9)).cfg.otpeBase + Reg.off (.digest 0)) 4 9 :: noMore := by decide
theorem test_wit_ReadOnly : HostMoves (busyState (.write 0x050 4 9)) ∧ readOnlyReg (.out 0) = true ∧
    (busyState (.write 0x050 4 9)).pending
      = .write ((busyState (.write 0x050 4 9)).cfg.otpeBase + Reg.off (.out 0)) 4 9 :: noMore := by decide
theorem test_wit_StatusWrite : HostMoves (busyState (.write 0x00C 4 6)) ∧
    (busyState (.write 0x00C 4 6)).pending
      = .write ((busyState (.write 0x00C 4 6)).cfg.otpeBase + 0x00C) 4 6 :: noMore := by decide
theorem test_wit_KeyWrite : HostMoves (busyState (.write 0x1FC 4 6)) ∧
    4 * (63 : Fin 64).val < (busyState (.write 0x1FC 4 6)).cfg.keyMaxBytes ∧
    (busyState (.write 0x1FC 4 6)).pending
      = .write ((busyState (.write 0x1FC 4 6)).cfg.otpeBase + 0x100 + 4 * (63 : Fin 64).val) 4 6 :: noMore := by
  decide
/-- A host step that answers, and one that faults. -/
theorem test_wit_Reveal : ¬ EngineMoves (busyState (.read 0x100 4)) ∧ (∃ t, step (busyState (.read 0x100 4)) = .next t) ∧
    ¬ EngineMoves (busyState (.read 0x060 4)) ∧ step (busyState (.read 0x060 4)) = .fault (.busError 0x060) :=
  ⟨by decide, ⟨_, rfl⟩, by decide, rfl⟩
theorem test_wit_Identification : Config.wf { keyMaxBytes := 64, otpeBase := 0x1000 } ∧ Config.wf Config.reference := by
  decide
theorem test_wit_Token : (busyState .poll).outlen.toNat ≤ 12 := by decide
/-- A poll that finds DONE = 0, and one that finds DONE = 1. -/
theorem test_wit_Wait : HostMoves (busyState .poll) ∧ (busyState .poll).pending = .poll :: noMore ∧
    (readReg (busyState .poll) .status).getLsbD 1 = false ∧
    HostMoves { busyState .poll with phase := .idle, done := true } ∧
    (readReg { busyState .poll with phase := .idle, done := true } .status).getLsbD 1 = true := by decide +kernel
/-- The four events that clear the interrupt. -/
theorem test_wit_Interrupt : EngineMoves (flight (snapOf 0x0)) ∧
    HostMoves (host (.write 0x010 4 0) State.reset) ∧
    (host (.write 0x010 4 0) State.reset).phase = .idle ∧
    (host (.write 0x010 4 0) State.reset).pending = .write (0 + 0x010) 4 0 :: noMore ∧
    (host .reset State.reset).pending = .reset :: noMore ∧
    (host (.write 0x00C 4 2) State.reset).pending = .write (0 + 0x00C) 4 2 :: noMore ∧
    (2 : Word).getLsbD 1 = true ∧
    (host (.write 0x008 4 0) State.reset).pending = .write (0 + 0x008) 4 0 :: noMore ∧
    (0 : Word).getLsbD 0 = false := by decide
/-- A completion sets DONE, and a dropped write sets OVR. -/
theorem test_wit_Setters : after (flight (snapOf 0x0)) [.status] = [0x2] ∧
    after (waiting 0x605 (.write 0x010 4 0)) [.status] = [0x5] := by decide +kernel
theorem test_wit_Results : ¬ EngineMoves (busyState (.write 0x1FC 4 6)) ∧
    (∀ rest, (busyState (.write 0x1FC 4 6)).pending ≠ .reset :: rest) ∧
    (∃ t, step (busyState (.write 0x1FC 4 6)) = .next t) ∧ readOnlyReg .code = true :=
  ⟨by decide, fun _ h => (by cases h), ⟨_, rfl⟩, rfl⟩
theorem test_wit_Reset : Config.wf (busyState .reset).cfg ∧ HostMoves (busyState .reset) ∧
    (busyState .reset).pending = .reset :: noMore := ⟨by show Config.wf Config.reference; decide, by decide, rfl⟩
/-- A command that stays in flight over two host steps. -/
theorem test_wit_Latency : ∀ k ≤ 2, ∃ t,
    core.run k { busyState .poll with pending := [.poll, .read 0 4] } = .next t ∧ State.phase t = .busy := by
  intro k hk
  interval_cases k <;> exact ⟨_, rfl, rfl⟩
/-- A host step and a completion step that answer. -/
theorem test_wit_Parameters : (∃ t, step (busyState .poll) = .next t) ∧
    ∃ t, step (flight (snapOf 0x804)) = .next t := ⟨⟨_, rfl⟩, ⟨_, rfl⟩⟩

end Sys2Proof.Tests
end

section
/-! SUPPORT. The scope's two claims (00_scope.md R7, R8, R10): what one step does to the parameters and to the
latency of a command in flight, and from these the claims about steps and runs. -/

namespace Sys2Proof.Machine

/-! ## The parameters, the phase and the latency after each operation of a step -/

@[simp] theorem completeStep_cfg (i : Instr) (s : State) : (completeStep i (performOf i) s).cfg = s.cfg := by
  rw [completeStep_eq, complete_cfg]
  split <;> simp

@[simp] theorem completeStep_phase (i : Instr) (p : State → State) (s : State) :
    (completeStep i p s).phase = .idle := by
  rw [completeStep_eq, complete_phase]

@[simp] theorem pollStatus_cfg (rest : List BusEvent) (s : State) : (pollStatus rest s).cfg = s.cfg := rfl

@[simp] theorem pollStatus_delay (rest : List BusEvent) (s : State) :
    (pollStatus rest s).delay = s.delay - 1 := rfl

/-! ## The parameters -/

theorem hostStep_cfg {s t : State} (h : hostStep s = .next t) : t.cfg = s.cfg := by
  obtain ⟨-, rfl⟩ | ⟨r, rest, -, -, rfl⟩ | ⟨r, v, rest, -, -, rfl⟩ | ⟨rest, -, rfl⟩ | ⟨rest, -, rfl⟩ :=
    hostStep_cases h <;> simp

theorem step_cfg {s t : State} (h : step s = .next t) : t.cfg = s.cfg := by
  obtain ⟨-, i, -, rfl⟩ | ⟨-, -, rfl⟩ | ⟨-, hhost⟩ := step_cases h
  · exact completeStep_cfg i s
  · exact complete_cfg _ _ s
  · exact hostStep_cfg hhost

/-! ## The latency of a command in flight -/

/-- The engine's step ends the command in flight (R79). -/
theorem phase_of_engineMoves {s t : State} (he : EngineMoves s) (h : step s = .next t) : t.phase = .idle := by
  obtain ⟨-, i, -, rfl⟩ | ⟨-, -, rfl⟩ | ⟨hne, -⟩ := step_cases h
  · exact completeStep_phase i _ s
  · exact complete_phase _ _ s
  · exact absurd he hne

/-- A host event that does not end the command in flight uses up one access of its latency (R10, R129): only
reset ends it. -/
theorem hostStep_delay_of_busy {s t : State} (hs : s.phase = .busy) (hp : s.pending ≠ [])
    (h : hostStep s = .next t) (ht : t.phase = .busy) : t.delay = s.delay - 1 := by
  obtain ⟨hnil, -⟩ | ⟨r, rest, -, -, rfl⟩ | ⟨r, v, rest, -, -, rfl⟩ | ⟨rest, -, rfl⟩ | ⟨rest, -, rfl⟩ :=
    hostStep_cases h
  · exact absurd hnil hp
  · simp
  · obtain ⟨-, -, -, hdelay⟩ := writeReg_busy (s := tick rest s) (by simpa using hs) r v
    rw [hdelay, tick_delay]
  · exact pollStatus_delay rest s
  · simp at ht

/-- A step that leaves a command in flight is a host event, and its latency had not run out. -/
theorem delay_eq_succ_of_step_busy {s t : State} (hs : s.phase = .busy) (h : step s = .next t)
    (ht : t.phase = .busy) : s.delay = t.delay + 1 := by
  have hne : ¬ EngineMoves s := fun he => by simp [phase_of_engineMoves he h] at ht
  obtain ⟨hdelay, hpending⟩ : s.delay ≠ 0 ∧ s.pending ≠ [] :=
    ⟨fun h0 => hne ⟨hs, .inl h0⟩, fun hnil => hne ⟨hs, .inr hnil⟩⟩
  rw [step_of_not_engineMoves hne] at h
  have := hostStep_delay_of_busy hs hpending h ht
  omega

/-! ## Runs -/

theorem run_one (s : State) : core.run 1 s = step s := by
  simp only [Host.Core.run, show core.step s = step s from rfl]
  cases step s <;> rfl

/-- A command is in flight in every state of the run of `n` steps from `s`. -/
def BusyThrough (n : Nat) (s : State) : Prop :=
  ∀ k ≤ n, ∃ t, core.run k s = .next t ∧ State.phase t = .busy

theorem BusyThrough.phase {n : Nat} {s : State} (h : BusyThrough n s) : s.phase = .busy := by
  obtain ⟨t, hrun, ht⟩ := h 0 (Nat.zero_le n)
  cases hrun
  exact ht

/-- The run's first step, and the rest of the run. -/
theorem BusyThrough.exists_step {n : Nat} {s : State} (h : BusyThrough (n + 1) s) :
    ∃ t, step s = .next t ∧ BusyThrough n t := by
  obtain ⟨t, hrun, -⟩ := h 1 (by omega)
  have hstep : step s = .next t := (run_one s).symm.trans hrun
  refine ⟨t, hstep, fun k hk => ?_⟩
  rw [← run_succ hstep k]
  exact h (k + 1) (by omega)

theorem BusyThrough.le_delay {n : Nat} {s : State} (h : BusyThrough n s) : n ≤ s.delay := by
  induction n generalizing s with
  | zero => exact Nat.zero_le _
  | succ n ih =>
    obtain ⟨t, hstep, hrest⟩ := h.exists_step
    have hdelay := delay_eq_succ_of_step_busy h.phase hstep hrest.phase
    have hn := ih hrest
    omega

/-! ## The claims -/

/-- Settles O53: each step of the run uses up one access of the latency, by induction on the run's length. -/
theorem commandsCompleteWithinTheirLatency : Obligations.CommandsCompleteWithinTheirLatency :=
  fun _ _ h => BusyThrough.le_delay h

/-- Settles O54: no operation that a step is made of writes the parameters. -/
theorem parametersNeverChange : Obligations.ParametersNeverChange :=
  fun _ _ => step_cfg

end Sys2Proof.Machine
end

section
/-! SUPPORT. Secrecy of the key (O45; 10_state.md R43, 60_exceptions.md R113): a host step commutes with an
exchange of the key bytes, which no answer of the block depends on. -/

namespace Sys2Proof.Machine

/-- The outcome of a step, with other key bytes in the next state. -/
def outcomeWithKeys (k k' : Memory) : Host.Outcome State Fault Refusal → Host.Outcome State Fault Refusal
  | .next t => .next (withKeys k k' t)
  | .fault f => .fault f
  | .refused r => .refused r

@[simp] theorem readReg_withKeys (k k' : Memory) (s : State) (r : Reg) :
    readReg (withKeys k k' s) r = readReg s r := by
  cases r <;> rfl

theorem memRead_withKeys (k k' : Memory) (s : State) (off size : Nat) :
    memRead (withKeys k k' s) off size = memRead s off size := by
  have hread : readReg (withKeys k k' s) = readReg s := funext (readReg_withKeys k k' s)
  rw [memRead, memRead, hread]
  rfl

/-! ## Each event commutes with the exchange -/

theorem busRead_withKeys (k k' : Memory) (addr size : Nat) (s : State) :
    busRead addr size (withKeys k k' s) = outcomeWithKeys k k' (busRead addr size s) := by
  simp only [busRead, memRead_withKeys, show (withKeys k k' s).cfg = s.cfg from rfl]
  cases windowOffset s.cfg addr with
  | none => rfl
  | some off =>
    dsimp only
    cases memRead s off size <;> rfl

/-- A write to CMD copies the key into the snapshot, and a write to KEYj writes the key: the two states may hold
other key bytes afterwards. -/
theorem writeReg_withKeys (k k' : Memory) (s : State) (r : Reg) (v : Word) :
    ∃ l l', writeReg (withKeys k k' s) r v = withKeys l l' (writeReg s r v) := by
  cases r with
  | cmd =>
    rcases s with ⟨cfg, phase⟩
    cases phase with
    | idle => exact ⟨k, k, rfl⟩
    | busy => exact ⟨k, k', rfl⟩
  | key j => exact ⟨k.setWord j.val v, k', rfl⟩
  | _ => exact ⟨k, k', rfl⟩

theorem busWrite_withKeys (k k' : Memory) (addr size : Nat) (v : Word) (s : State) :
    ∃ l l', busWrite addr size v (withKeys k k' s) = outcomeWithKeys l l' (busWrite addr size v s) := by
  simp only [busWrite, memWrite, show (withKeys k k' s).cfg = s.cfg from rfl]
  cases windowOffset s.cfg addr with
  | none => exact ⟨k, k', rfl⟩
  | some off =>
    by_cases hsize : size = 4
    · simp only [if_pos hsize]
      cases regAt s.cfg.keyMaxBytes off with
      | none => exact ⟨k, k', rfl⟩
      | some r =>
        obtain ⟨l, l', hw⟩ := writeReg_withKeys k k' s r v
        exact ⟨l, l', congrArg Host.Outcome.next hw⟩
    · simp only [if_neg hsize]
      exact ⟨k, k', rfl⟩

theorem busBurst_withKeys (k k' : Memory) (addr : Nat) (s : State) :
    busBurst addr (withKeys k k' s) = outcomeWithKeys k k' (busBurst addr s) := by
  simp only [busBurst, show (withKeys k k' s).cfg = s.cfg from rfl]
  cases windowOffset s.cfg addr <;> rfl

theorem hostStep_withKeys (k k' : Memory) (s : State) :
    ∃ l l', hostStep (withKeys k k' s) = outcomeWithKeys l l' (hostStep s) := by
  simp only [hostStep, show (withKeys k k' s).pending = s.pending from rfl]
  cases s.pending with
  | nil => exact ⟨k, k', rfl⟩
  | cons e rest =>
    cases e with
    | read addr size => exact ⟨k, k', busRead_withKeys k k' addr size (tick rest s)⟩
    | write addr size v => exact busWrite_withKeys k k' addr size v (tick rest s)
    | readBurst addr size beats => exact ⟨k, k', busBurst_withKeys k k' addr (tick rest s)⟩
    | writeBurst addr size vs => exact ⟨k, k', busBurst_withKeys k k' addr (tick rest s)⟩
    | poll => exact ⟨k, k', rfl⟩
    | reset => exact ⟨[], [], rfl⟩

theorem engineMoves_withKeys {k k' : Memory} {s : State} : EngineMoves (withKeys k k' s) ↔ EngineMoves s :=
  Iff.rfl

/-- Settles O45: the outcome of a host step with other key bytes is its outcome, up to the key bytes. -/
theorem hostStepsDoNotRevealTheKey : Obligations.HostStepsDoNotRevealTheKey := by
  intro s k k' hne
  obtain ⟨l, l', heq⟩ := hostStep_withKeys k k' s
  rw [step_of_not_engineMoves hne, step_of_not_engineMoves (engineMoves_withKeys.not.mpr hne), heq]
  refine ⟨fun t ht => ⟨l, l', ?_⟩, fun f hf => ?_, readReg_withKeys k k' s⟩
  · rw [ht, outcomeWithKeys]
  · rw [hf, outcomeWithKeys]

end Sys2Proof.Machine
end

section
/-! SUPPORT. The invariant (O56): each operation that a step is made of keeps it. -/

namespace Sys2Proof.Machine

/-! ## Buffers of a fixed length -/

theorem bufferWf_nil (n : Nat) : bufferWf n [] := ⟨Memory.wf_nil, by simp⟩

theorem bufferWf_ofBytes {n : Nat} {bs : List Byte} (h : bs.length ≤ n) : bufferWf n (Memory.ofBytes bs) :=
  ⟨Memory.wf_ofBytes bs, fun c hc => lt_of_lt_of_le (Memory.lt_of_mem_ofBytes bs c hc) h⟩

theorem bufferWf.setWord {n j : Nat} {m : Memory} (hm : bufferWf n m) (hj : 4 * j + 4 ≤ n) (v : Word) :
    bufferWf n (m.setWord j v) :=
  ⟨Memory.wf_setWord hm.1 j v, Memory.lt_of_mem_setWord v hm.2 hj⟩

/-! ## Writing results -/

theorem Inv.putMsg {s : State} (h : Inv s) (M : List Byte) : Inv (putMsg M s) := { h with }

theorem Inv.putTrunc {s : State} (h : Inv s) (r : Nat × Nat) : Inv (putTrunc r s) := { h with }

theorem Inv.countMac {s : State} (h : Inv s) : Inv (countMac s) := { h with }

theorem Inv.wipe {s : State} (h : Inv s) : Inv (wipe s) := { h with key := bufferWf_nil _ }

theorem Inv.putDigest {s : State} (h : Inv s) {H : List Byte} (hH : H.length ≤ 64) : Inv (putDigest H s) :=
  { h with dig := bufferWf_ofBytes (by rw [List.length_append, length_zeros]; omega) }

theorem Inv.putTstep {s : State} (h : Inv s) {n : BitVec 64} (hn : n.toNat ≤ 18446744073709551) :
    Inv (putTstep n s) :=
  { h with tstep := by rwa [putTstep_tstepHi, putTstep_tstepLo, append_halves] }

/-- A character of the code is the character of the value it was formatted from (R91). -/
theorem digitChar_fmtCode {d i : Nat} (hi : i < d) (v : Nat) : digitChar (fmtCode v d) d i = digitChar v d i := by
  rw [digitChar, fmtCode_digit v d i hi, digitChar]

theorem Inv.putFmt {s : State} (h : Inv s) {v d : Nat} (hv : v < 2 ^ 31) (hd : d ≤ 10) :
    Inv (putFmt (fmt v d) d s) := by
  have hcode : (BitVec.ofNat 31 (fmtCode v d)).toNat = fmtCode v d := by
    rw [BitVec.toNat_ofNat, Nat.mod_eq_of_lt (lt_of_le_of_lt (fmtCode_le v d) hv)]
  have hlen : (BitVec.ofNat 4 d).toNat = d := by rw [BitVec.toNat_ofNat, Nat.mod_eq_of_lt (by omega)]
  exact
    { h with
      outc := bufferWf_ofBytes (by rw [length_outBytes])
      outlen := by rwa [putFmt_outlen, hlen]
      code := by
        rw [putFmt_code, putFmt_outlen, hlen, fmt, hcode]
        exact fmtCode_lt v d
      chars := fun i hi => by
        rw [putFmt_outlen, hlen] at hi
        rw [putFmt_outc, putFmt_code, putFmt_outlen, hlen, fmt, hcode, Memory.read_ofBytes, byteAt_outBytes,
          if_pos (by omega), byteAt_fmtChars v d i hi, digitChar_fmtCode hi]
      rest := fun i hi => by
        rw [putFmt_outlen, hlen] at hi
        rw [putFmt_outc, Memory.read_ofBytes, byteAt_outBytes, if_neg (by omega)] }

/-! ## Performing a command -/

/-- A digest fits DIG (R42, R63). -/
theorem length_hmac_le (a : Alg) (K m : List Byte) : (hmac a K m).length ≤ 64 := by
  rw [length_hmac]
  exact (digestLen_bounds a).2.1

theorem trunc_lt (H : List Byte) : (trunc H).2 < 2 ^ 31 := by
  rw [trunc_eq]
  exact binaryOf_lt _ H

/-- What HOTP and TOTP write, for any key and counter. -/
theorem Inv.putHotp {s : State} (h : Inv s) (a : Alg) {d : Nat} (hd : d ≤ 10) (K : List Byte) (c : BitVec 64) :
    Inv (putHotp (hotp a d K c) d s) :=
  ((((h.putMsg _).putDigest (length_hmac_le a K (enc64 c))).putTrunc _).putFmt (trunc_lt _) hd).countMac.wipe

theorem stepOf_le (S : Snapshot) : (stepOf S).toNat ≤ 18446744073709551 := by
  rw [stepOf_toNat]
  exact tstep_le S.ts.isLt

/-- A command that passes its checks keeps the invariant when it is performed. -/
theorem Inv.performOf {s : State} (h : Inv s) {i : Instr}
    (hpass : errCodeOf (checks i s.cfg.keyMaxBytes s.snap) = .none) : Inv (performOf i s) := by
  obtain ⟨hdigits, -, halg, -⟩ := checks_pass.mp hpass
  cases i with
  | nop => exact h
  | enc => exact h.putMsg _
  | mac a =>
    cases a with
    | none => exact absurd rfl halg
    | some a => exact ((h.putMsg _).putDigest (length_hmac_le a _ _)).countMac.wipe
  | trunc a d =>
    cases a with
    | none => exact absurd rfl halg
    | some a => exact (h.putTrunc _).putFmt (trunc_lt _) (hdigits d rfl).2
  | fmt d => exact h.putFmt s.snap.value.isLt (hdigits d rfl).2
  | hotp a d =>
    cases a with
    | none => exact absurd rfl halg
    | some a => exact h.putHotp a (hdigits d rfl).2 _ _
  | tstep => exact h.putTstep (stepOf_le _)
  | totp a d =>
    cases a with
    | none => exact absurd rfl halg
    | some a => exact (h.putTstep (stepOf_le _)).putHotp a (hdigits d rfl).2 _ _

/-! ## Completion -/

theorem Inv.complete {s : State} (h : Inv s) {F : ErrFlags} (hcounter : F.counter = false)
    (hcmd : F.cmd = true → F = { cmd := true }) : Inv (complete (errCodeOf F) F s) :=
  { h with
    snapKey := nofun
    snapDig := nofun
    snapCmd := nofun
    busyDone := nofun
    busyFlags := nofun
    errcode := rfl
    counter := hcounter
    cmdAlone := hcmd }

theorem Inv.completeStep {s : State} (h : Inv s) (i : Instr) : Inv (completeStep i (Machine.performOf i) s) := by
  have hcmd : (checks i s.cfg.keyMaxBytes s.snap).cmd = true →
      checks i s.cfg.keyMaxBytes s.snap = { cmd := true } := fun hc => by simp at hc
  rw [completeStep_eq]
  split
  · next hpass => exact (h.performOf hpass).complete (checks_counter i _ _) hcmd
  · exact h.complete (checks_counter i _ _) hcmd

/-! ## Host events -/

theorem Inv.tick {s : State} (h : Inv s) (rest : List BusEvent) : Inv (tick rest s) := { h with }

theorem Inv.deliver {s : State} (h : Inv s) (v : Word) : Inv (deliver v s) := { h with }

theorem Inv.writeStatus {s : State} (h : Inv s) (v : Word) : Inv (writeStatus v s) :=
  { h with busyDone := fun hb => by simp [Machine.writeStatus, h.busyDone hb] }

theorem Inv.accept {s : State} (h : Inv s) (w : Word) : Inv (accept w s) :=
  { h with
    snapKey := fun _ => h.key
    snapDig := fun _ => h.dig
    snapCmd := fun _ => rfl
    busyDone := fun _ => rfl
    busyFlags := fun _ => rfl
    errcode := rfl
    counter := rfl
    cmdAlone := nofun }

theorem Inv.startDelay {s : State} (h : Inv s) : Inv (startDelay s) := { h with }

theorem Inv.dropCommand {s : State} (h : Inv s) : Inv (dropCommand s) := { h with }

theorem Inv.issue {s : State} (h : Inv s) (w : Word) : Inv (issue w s) := by
  unfold Machine.issue
  split
  · exact (h.accept w).startDelay
  · exact h.dropCommand

theorem Inv.writeReg {s : State} (h : Inv s) {r : Reg} (hr : mappedReg s.cfg.keyMaxBytes r) (v : Word) :
    Inv (writeReg s r v) := by
  cases r with
  | status => exact h.writeStatus v
  | cmd => exact h.issue v
  | digest j => exact { h with dig := h.dig.setWord (by omega) v }
  | key j =>
    obtain ⟨hmul, -, -⟩ := h.cfg
    have hj : 4 * j.val < s.cfg.keyMaxBytes := hr
    exact { h with key := h.key.setWord (by omega) v }
  | _ => exact { h with }

theorem Inv.resetBlock {s : State} (h : Inv s) : Inv (resetBlock s) where
  cfg := h.cfg
  key := bufferWf_nil _
  dig := bufferWf_nil _
  outc := bufferWf_nil _
  snapKey := nofun
  snapDig := nofun
  snapCmd := nofun
  busyDone := nofun
  busyFlags := nofun
  errcode := rfl
  counter := rfl
  cmdAlone := nofun
  outlen := by simp
  code := by simp
  chars := nofun
  rest := fun _ _ => rfl
  tstep := by simp

theorem Inv.hostStep {s t : State} (h : Inv s) (ht : hostStep s = .next t) : Inv t := by
  obtain ⟨-, rfl⟩ | ⟨r, rest, -, -, rfl⟩ | ⟨r, v, rest, -, hr, rfl⟩ | ⟨rest, -, rfl⟩ | ⟨rest, -, rfl⟩ :=
    hostStep_cases ht
  · exact h
  · exact (h.tick rest).deliver _
  · exact (h.tick rest).writeReg hr v
  · exact (h.tick _).deliver _
  · exact (h.tick rest).resetBlock

/-- Settles O56: completing a command and every host event keep the invariant. -/
theorem everyStepKeepsTheInvariant : Obligations.EveryStepKeepsTheInvariant := by
  intro s t h ht
  obtain ⟨-, i, -, rfl⟩ | ⟨-, -, rfl⟩ | ⟨-, hhost⟩ := step_cases ht
  · exact h.completeStep i
  · exact h.complete (F := illegalChecks) rfl fun _ => rfl
  · exact h.hostStep hhost

end Sys2Proof.Machine
end

section
/-! SUPPORT. The registers as the host reads and writes them (O37, O40 to O44, O46; 10_state.md R22 to R33, R42,
R43): what a write stores, and what it leaves alone. -/

namespace Sys2Proof.Machine

/-! ## Fields and masks -/

/-- A field at the bottom of a word, read with 0 above it, is the word under the field's mask. -/
theorem setWidth_extractLsb'_zero (v : Word) (n : Nat) :
    (v.extractLsb' 0 n).setWidth 32 = v &&& BitVec.ofNat 32 (2 ^ n - 1) := by
  refine BitVec.eq_of_getLsbD_eq fun i hi => ?_
  rw [BitVec.getLsbD_setWidth, BitVec.getLsbD_extractLsb', BitVec.getLsbD_and, BitVec.getLsbD_ofNat,
    Nat.testBit_two_pow_sub_one]
  by_cases h : i < n <;> simp [h, hi]

theorem ofBool_getLsbD_zero (v : Word) : BitVec.ofBool (v.getLsbD 0) = v.extractLsb' 0 1 := by
  refine BitVec.eq_of_getLsbD_eq fun i hi => ?_
  obtain rfl : i = 0 := by omega
  simp

/-- CAP as a number (R25). -/
theorem capWord_toNat {k : Nat} (hk : k < 512) : (capWord k).toNat = 0x7A000 + k := by
  have hhigh : (0#13 ++ 1#1 ++ 1#1 ++ 1#1 ++ BitVec.ofNat 4 digitsMax ++ 0#3).toNat = 0x3D0 := by decide
  rw [capWord, BitVec.toNat_append, hhigh, BitVec.toNat_ofNat, Nat.mod_eq_of_lt (by omega),
    ← Nat.shiftLeft_add_eq_or_of_lt (by omega)]
  omega

/-! ## Writes -/

theorem mappedReg_of_storedBits {r : Reg} {mask : Word} (h : storedBits r = some mask) (k : Nat) :
    mappedReg k r := by
  cases r with
  | key j => cases h
  | _ => trivial

theorem mappedReg_of_readOnlyReg {r : Reg} (h : readOnlyReg r = true) (k : Nat) : mappedReg k r := by
  cases r with
  | key j => cases h
  | _ => trivial

theorem writeReg_of_readOnlyReg {r : Reg} (h : readOnlyReg r = true) (s : State) (v : Word) :
    writeReg s r v = s := by
  cases r with
  | ctrl | status | cmd | keylen | period | value | ctrHi | ctrLo | tsHi | tsLo => cases h
  | digest j | key j => cases h
  | _ => rfl

/-- A write to a register other than CMD starts and drops no command. -/
theorem writeReg_flight {r : Reg} (h : r ≠ .cmd) (s : State) (v : Word) :
    (writeReg s r v).phase = s.phase ∧ (writeReg s r v).snap = s.snap := by
  cases r with
  | cmd => exact absurd rfl h
  | _ => exact ⟨rfl, rfl⟩

/-- An RW register reads back as the bits it stores (R26, R29 to R33, R42). -/
theorem readReg_writeReg_same {s : State} (hdig : s.dig.wf) {r : Reg} {mask : Word}
    (h : storedBits r = some mask) (v : Word) : readReg (writeReg s r v) r = v &&& mask := by
  cases r with
  | ctrl =>
    cases h
    rw [writeReg, readReg, ofBool_getLsbD_zero]
    exact setWidth_extractLsb'_zero v 1
  | keylen => cases h; exact setWidth_extractLsb'_zero v 9
  | value => cases h; exact setWidth_extractLsb'_zero v 31
  | period | ctrHi | ctrLo | tsHi | tsLo => cases h; exact (BitVec.and_allOnes (x := v)).symm
  | digest j =>
    cases h
    rw [writeReg, readReg, Memory.word_setWord hdig, if_pos rfl]
    exact (BitVec.and_allOnes (x := v)).symm
  | _ => cases h

/-- A write to an RW register changes what no other register reads as. -/
theorem readReg_writeReg_ne {s : State} (hdig : s.dig.wf) {r r' : Reg} {mask : Word}
    (h : storedBits r = some mask) (hne : r' ≠ r) (v : Word) : readReg (writeReg s r v) r' = readReg s r' := by
  cases r with
  | ctrl | keylen | period | value | ctrHi | ctrLo | tsHi | tsLo =>
    cases r' <;> first | rfl | exact absurd rfl hne
  | digest j =>
    cases r' with
    | digest k =>
      have hkj : k.val ≠ j.val := fun hv => hne (by rw [Fin.ext hv])
      rw [writeReg, readReg, readReg, Memory.word_setWord hdig, if_neg hkj]
    | _ => rfl
  | _ => cases h

/-- A write to an RW register leaves the key alone. -/
theorem writeReg_key_of_storedBits {r : Reg} {mask : Word} (h : storedBits r = some mask) (s : State) (v : Word) :
    (writeReg s r v).key = s.key := by
  cases r with
  | cmd | key j => cases h
  | _ => rfl

theorem readReg_writeStatus (v : Word) (s : State) {r : Reg} (h : r ≠ .status) :
    readReg (writeStatus v s) r = readReg s r :=
  readReg_congr r h rfl rfl rfl rfl rfl rfl rfl rfl rfl rfl rfl rfl rfl rfl rfl rfl rfl rfl rfl rfl rfl

/-- A STATUS write clears DONE and OVR where the word has them set, and keeps every other bit (R27). -/
theorem statusWord_writeStatus (v : Word) (s : State) :
    statusWord (writeStatus v s) = statusWord s &&& ~~~(v &&& 0x6) := by
  refine BitVec.eq_of_getLsbD_eq fun i hi => ?_
  rw [BitVec.getLsbD_and, BitVec.getLsbD_not, BitVec.getLsbD_and, getLsbD_statusWord, getLsbD_statusWord]
  interval_cases i <;> simp [writeStatus]

/-- No read shows the key. -/
theorem readReg_writeReg_key (s : State) (j : Fin 64) (v : Word) (r : Reg) :
    readReg (writeReg s (.key j) v) r = readReg s r := by
  cases r <;> rfl

/-- The bytes of a written word in the buffer, as numbers (R49). -/
theorem read_setWord_toNat {m : Memory} (hm : m.wf) (j : Nat) (v : Word) :
    ((m.setWord j v).read (4 * j)).toNat = v.toNat / 2 ^ 24 ∧
    ((m.setWord j v).read (4 * j + 1)).toNat = v.toNat / 2 ^ 16 % 256 ∧
    ((m.setWord j v).read (4 * j + 2)).toNat = v.toNat / 2 ^ 8 % 256 ∧
    ((m.setWord j v).read (4 * j + 3)).toNat = v.toNat % 256 := by
  have hbyte : ∀ k < 4, ((m.setWord j v).read (4 * j + k)).toNat = (byteAt (unpackBe v) k).toNat :=
    fun k hk => by rw [Memory.read_setWord hm, if_pos (by omega), show (4 * j + k) % 4 = k by omega]
  have hv := v.isLt
  refine ⟨(hbyte 0 (by omega)).trans ?_, (hbyte 1 (by omega)).trans ?_, (hbyte 2 (by omega)).trans ?_,
    (hbyte 3 (by omega)).trans ?_⟩ <;>
    simp [byteAt, unpackBe, BitVec.extractLsb'_toNat, Nat.shiftRight_eq_div_pow]
  omega

/-! ## The claims -/

/-- Settles O37: a mapped register is found at its offset, and only there. -/
theorem registerMap : Obligations.RegisterMap :=
  fun _ _ _ => ⟨off_of_regAt, fun ⟨hmapped, hoff⟩ => hoff ▸ regAt_off hmapped⟩

/-- Settles O40: the host's step is the delivery of the value. -/
theorem readsReturnTheValueWithoutSideEffect : Obligations.ReadsReturnTheValueWithoutSideEffect :=
  fun _ _ _ hhost hmapped hp => step_read hhost hmapped hp

/-- Settles O41: each RW register by its own field, and the digest words by the buffer's laws. -/
theorem writableRegistersStoreTheirBits : Obligations.WritableRegistersStoreTheirBits := by
  intro s r v mask rest hinv hhost hstored hp
  have hcmd : r ≠ .cmd := by rintro rfl; cases hstored
  have hdig : (tick rest s).dig.wf := hinv.dig.1
  obtain ⟨hphase, hsnap⟩ := writeReg_flight hcmd (tick rest s) v
  refine ⟨_, step_write hhost (mappedReg_of_storedBits hstored _) hp, readReg_writeReg_same hdig hstored v,
    fun i => ?_, hphase, hsnap, fun r' hne => ?_⟩
  · rw [writeReg_key_of_storedBits hstored, tick_key]
  · rw [readReg_writeReg_ne hdig hstored hne, readReg_tick]

/-- Settles O42: a write to an RO register writes nothing. -/
theorem readOnlyRegistersIgnoreWrites : Obligations.ReadOnlyRegistersIgnoreWrites := by
  intro s r v rest hhost hro hp
  rw [step_write hhost (mappedReg_of_readOnlyReg hro _) hp, writeReg_of_readOnlyReg hro]
  rfl

/-- Settles O43: STATUS bit by bit. -/
theorem statusWriteClearsDoneAndOvr : Obligations.StatusWriteClearsDoneAndOvr := by
  intro s v rest hhost hp
  refine ⟨_, step_write (r := .status) hhost trivial hp, ?_, fun i => rfl, rfl, rfl, fun r hr => ?_⟩
  · exact statusWord_writeStatus v (tick rest s)
  · exact (readReg_writeStatus v (tick rest s) hr).trans (readReg_tick rest s r)

/-- Settles O44: the buffer's laws at word `j` of the key. -/
theorem keyWriteSetsItsFourBytes : Obligations.KeyWriteSetsItsFourBytes := by
  intro s j v rest hinv hhost hj hp
  rw [Nat.add_assoc] at hp
  have hkey : s.key.wf := hinv.key.1
  obtain ⟨h0, h1, h2, h3⟩ := read_setWord_toNat hkey j.val v
  refine ⟨_, step_write (r := .key j) hhost hj hp, h0, h1, h2, h3, fun i hi => ?_, rfl, rfl, fun r => ?_⟩
  · exact (Memory.read_setWord hkey j.val v i).trans (if_neg hi)
  · rw [readReg_writeReg_key, readReg_tick]

/-- Settles O46: CAP's fields lie beside each other. -/
theorem identificationRegisters : Obligations.IdentificationRegisters := by
  rintro s ⟨-, -, hmax⟩
  refine ⟨rfl, (capWord_toNat (by omega)).trans ?_⟩
  omega

end Sys2Proof.Machine
end

section
/-! SUPPORT. What a completion and the host's events do to the registers of R44's table, to MACCNT, DONE and OVR
(O24, O27, O50; 10_state.md R41, R44, R45). -/

namespace Sys2Proof.Machine

/-! ## A completion -/

theorem ne_status_of_writesReg {i : Instr} {r : Reg} (h : writesReg i r = false) : r ≠ .status := by
  rintro rfl
  cases h

/-- Settles O24: what the command performs keeps the registers of its column, and `complete` writes STATUS alone. -/
theorem successfulCommandKeepsWhatItsColumnLeaves : Obligations.SuccessfulCommandKeepsWhatItsColumnLeaves := by
  intro i s hpass
  have hexec : exec i s = .next (complete .none {} (performOf i s)) := by
    rw [exec_eq, completeStep_pass _ hpass]
  refine ⟨_, hexec, ?_, fun hkey j => ?_, fun r hr => ?_⟩
  · exact
      { phase := rfl
        status := (statusWord_complete_none _).trans (by rw [performOf_ovr])
        ovr := performOf_ovr i s
        outside := ⟨performOf_cfg i s, performOf_pending i s, performOf_reads i s, performOf_latencies i s⟩ }
  · rw [complete_key, performOf_key hkey]
  · rw [readReg_complete _ _ _ (ne_status_of_writesReg hr), readReg_performOf hr]

/-- The ERRCODE field is 0 exactly where no check of the command has failed (R77, R104). -/
theorem errcode_completeStep_eq_zero {i : Instr} {p : State → State} {s : State} :
    (readReg (completeStep i p s) .status).extractLsb' 4 4 = 0 ↔
      errCodeOf (checks i s.cfg.keyMaxBytes s.snap) = .none := by
  rw [completeStep_eq, readReg, errcode_statusWord, complete_errcode, num_eq_zero]

/-- A completion step counts one HMAC exactly if it leaves no error and the command uses the key (R41). -/
theorem completeStep_maccnt (i : Instr) (s : State) : (completeStep i (performOf i) s).maccnt =
    if errCodeOf (checks i s.cfg.keyMaxBytes s.snap) = .none ∧ usesKey i = true then s.maccnt + 1 else s.maccnt := by
  rw [completeStep_eq, complete_maccnt]
  by_cases hpass : errCodeOf (checks i s.cfg.keyMaxBytes s.snap) = .none
  · obtain ⟨-, -, halg, -⟩ := checks_pass.mp hpass
    simp [hpass, performOf_maccnt halg]
  · simp [hpass]

@[simp] theorem completeStep_done (i : Instr) (p : State → State) (s : State) : (completeStep i p s).done = true := by
  rw [completeStep_eq, complete_done]

@[simp] theorem completeStep_ovr (i : Instr) (s : State) : (completeStep i (performOf i) s).ovr = s.ovr := by
  rw [completeStep_eq, complete_ovr]
  split <;> simp

/-! ## The host's events -/

/-- No host event but reset writes MACCNT. -/
theorem hostStep_maccnt {s t : State} (h : hostStep s = .next t) :
    (t.maccnt = s.maccnt ∧ ∀ rest, s.pending ≠ .reset :: rest) ∨
      (t.maccnt = 0 ∧ ∃ rest, s.pending = .reset :: rest) := by
  obtain ⟨hp, rfl⟩ | ⟨r, rest, hp, -, rfl⟩ | ⟨r, v, rest, hp, -, rfl⟩ | ⟨rest, hp, rfl⟩ | ⟨rest, hp, rfl⟩ :=
    hostStep_cases h
  · exact .inl ⟨rfl, by simp [hp]⟩
  · exact .inl ⟨rfl, by simp [hp]⟩
  · exact .inl ⟨by simp, by simp [hp]⟩
  · exact .inl ⟨rfl, by simp [hp]⟩
  · exact .inr ⟨rfl, rest, hp⟩

/-- No host write sets DONE: a STATUS write and an accepted command clear it (R27, R73). -/
theorem done_of_done_writeReg {s : State} {r : Reg} {v : Word} (h : (writeReg s r v).done = true) :
    s.done = true := by
  cases r with
  | status => exact (Bool.and_eq_true_iff.mp h).1
  | cmd =>
    cases hphase : s.phase with
    | idle => simp [writeReg, issue, hphase, accept] at h
    | busy => simpa [writeReg, issue, hphase] using h
  | _ => exact h

/-- A host write sets OVR only as a CMD write that is dropped (R75). -/
theorem ovr_of_ovr_writeReg {s : State} {r : Reg} {v : Word} (h : (writeReg s r v).ovr = true) :
    s.ovr = true ∨ (r = .cmd ∧ s.phase = .busy) := by
  cases r with
  | status => exact .inl (Bool.and_eq_true_iff.mp h).1
  | cmd =>
    cases hphase : s.phase with
    | idle => exact .inl (by simpa [writeReg, issue, hphase] using h)
    | busy => exact .inr ⟨rfl, rfl⟩
  | _ => exact .inl h

theorem hostStep_done {s t : State} (h : hostStep s = .next t) (hdone : t.done = true) : s.done = true := by
  obtain ⟨-, rfl⟩ | ⟨r, rest, -, -, rfl⟩ | ⟨r, v, rest, -, -, rfl⟩ | ⟨rest, -, rfl⟩ | ⟨rest, -, rfl⟩ :=
    hostStep_cases h
  · exact hdone
  · exact hdone
  · exact done_of_done_writeReg (s := tick rest s) hdone
  · exact hdone
  · cases hdone

theorem hostStep_ovr {s t : State} (h : hostStep s = .next t) (hovr : t.ovr = true) :
    s.ovr = true ∨ (s.phase = .busy ∧ ∃ w rest, s.pending = .write (s.cfg.otpeBase + 0x010) 4 w :: rest) := by
  obtain ⟨-, rfl⟩ | ⟨r, rest, -, -, rfl⟩ | ⟨r, v, rest, hp, -, rfl⟩ | ⟨rest, -, rfl⟩ | ⟨rest, -, rfl⟩ :=
    hostStep_cases h
  · exact .inl hovr
  · exact .inl hovr
  · obtain hs | ⟨rfl, hbusy⟩ := ovr_of_ovr_writeReg hovr
    · exact .inl hs
    · exact .inr ⟨hbusy, v, rest, hp⟩
  · exact .inl hovr
  · cases hovr

/-! ## The claims about a step -/

/-- Settles O27: a completion counts by its checks and its OP number, and of the host's events only reset writes
MACCNT. -/
theorem maccntCountsHmacs : Obligations.MaccntCountsHmacs := by
  intro s t h
  obtain ⟨he, i, hdecode, rfl⟩ | ⟨he, -, rfl⟩ | ⟨hne, hhost⟩ := step_cases h
  · have hop := usesKey_iff (i := i)
    rw [opOf_toNat_of_decode hdecode] at hop
    simp only [ne_eq, errcode_completeStep_eq_zero, completeStep_maccnt, ← hop]
    refine ⟨fun _ hcode hkey => ?_, fun _ hor => if_neg fun hboth => ?_, fun hne => absurd he hne,
      fun hne => absurd he hne⟩
    · rw [if_pos ⟨hcode, hkey⟩]
      rfl
    · obtain ⟨hcode, hkey⟩ := hboth
      exact hor.elim (· hcode) (· hkey)
  · have hcode : (readReg (complete .illegalCommand { cmd := true } s) .status).extractLsb' 4 4 ≠ 0 := by
      rw [readReg, errcode_statusWord, complete_errcode]
      decide
    exact ⟨fun _ h0 => absurd h0 hcode, fun _ _ => rfl, fun hne => absurd he hne, fun hne => absurd he hne⟩
  · refine ⟨fun he => absurd he hne, fun he => absurd he hne, fun _ hnoreset => ?_, fun _ hreset => ?_⟩
    · obtain ⟨hkept, -⟩ | ⟨-, rest, hp⟩ := hostStep_maccnt hhost
      · exact hkept
      · exact absurd hp (hnoreset rest)
    · obtain ⟨-, hnoreset⟩ | ⟨hzero, -⟩ := hostStep_maccnt hhost
      · exact absurd hreset (not_exists.mpr hnoreset)
      · exact hzero

/-- Settles O50: a completion step sets DONE and keeps OVR, and a host event sets only OVR, by a dropped write. -/
theorem doneAndOvrHaveOneSetter : Obligations.DoneAndOvrHaveOneSetter := by
  intro s t h
  obtain ⟨he, i, -, rfl⟩ | ⟨he, -, rfl⟩ | ⟨-, hhost⟩ := step_cases h
  · exact ⟨fun _ => .inr he, fun hovr => .inl (by simpa using hovr)⟩
  · exact ⟨fun _ => .inr he, fun hovr => .inl hovr⟩
  · exact ⟨fun hdone => .inl (hostStep_done hhost hdone), hostStep_ovr hhost⟩

end Sys2Proof.Machine
end

section
/-! SUPPORT. The byte buffers and the bus (O29, O38, O39; 20_memory.md R47, R49, R51, R54, R107): what a host
write of a word does to a buffer, and which accesses take effect. -/

namespace Sys2Proof.Machine

/-! ## The host's access as a step -/

/-- A pending event on the host's turn is the step. -/
theorem step_of_pending {s : State} {e : BusEvent} {rest : List BusEvent} (hhost : HostMoves s)
    (hp : s.pending = e :: rest) : step s = hostStep s :=
  step_of_not_engineMoves (hhost.not_engineMoves (by simp [hp]))

theorem step_eq_busRead {s : State} {addr size : Nat} {rest : List BusEvent} (hhost : HostMoves s)
    (hp : s.pending = .read addr size :: rest) : step s = busRead addr size (tick rest s) := by
  rw [step_of_pending hhost hp, hostStep, hp]

theorem step_eq_busWrite {s : State} {addr size : Nat} {v : Word} {rest : List BusEvent} (hhost : HostMoves s)
    (hp : s.pending = .write addr size v :: rest) : step s = busWrite addr size v (tick rest s) := by
  rw [step_of_pending hhost hp, hostStep, hp]

theorem step_eq_busBurst {s : State} {addr size beats : Nat} {vs : List Word} {rest : List BusEvent}
    (hhost : HostMoves s)
    (hp : s.pending = .readBurst addr size beats :: rest ∨ s.pending = .writeBurst addr size vs :: rest) :
    step s = busBurst addr (tick rest s) := by
  obtain hp | hp := hp
  · rw [step_of_pending hhost hp, hostStep, hp]
  · rw [step_of_pending hhost hp, hostStep, hp]

/-! ## Inside the window -/

/-- Some register lies at every mapped offset of the window (R22). -/
theorem exists_reg_of_mappedOffset {k off : Nat} (hoff : off < 0x200) (hmapped : mappedOffset k off) :
    ∃ r, mappedReg k r ∧ r.off = off := by
  obtain ⟨r, hr⟩ := Option.isSome_iff_exists.mp ((regAt_isSome hoff).mpr hmapped)
  exact ⟨r, off_of_regAt hr⟩

theorem regAt_eq_none {k off : Nat} (hoff : off < 0x200) (h : ¬ mappedOffset k off) : regAt k off = none :=
  Option.not_isSome_iff_eq_none.mp fun hsome => h ((regAt_isSome hoff).mp hsome)

/-- No register answers an access of another width or at an offset that is not mapped (R47, R51). -/
theorem mem_of_not_admitted {s : State} {off size : Nat} (hoff : off < 0x200)
    (h : ¬ (size = 4 ∧ mappedOffset s.cfg.keyMaxBytes off)) (v : Word) :
    memRead s off size = none ∧ memWrite s off size v = none := by
  by_cases hsize : size = 4
  · have hnone := regAt_eq_none hoff fun hmapped => h ⟨hsize, hmapped⟩
    simp only [memRead, memWrite, if_pos hsize, hnone, Option.map_none, and_self]
  · exact ⟨if_neg hsize, if_neg hsize⟩

/-- A single access of the window that no register answers is a BusError (R107). -/
theorem bus_of_not_admitted {s : State} {off size : Nat} (hoff : off < 0x200)
    (h : ¬ (size = 4 ∧ mappedOffset s.cfg.keyMaxBytes off)) (v : Word) :
    busRead (s.cfg.otpeBase + off) size s = .fault (.busError off) ∧
      busWrite (s.cfg.otpeBase + off) size v s = .fault (.busError off) := by
  obtain ⟨hread, hwrite⟩ := mem_of_not_admitted hoff h v
  simp only [busRead, busWrite, windowOffset_base s.cfg hoff, hread, hwrite, and_self]

/-! ## Outside the window -/

theorem windowOffset_eq_none {c : Config} {addr : Nat} (h : addr < c.otpeBase ∨ c.otpeBase + 0x200 ≤ addr) :
    windowOffset c addr = none :=
  if_neg (by omega)

/-- No access outside the window reaches a register, whatever its kind (R54, I5). -/
theorem bus_of_outside {s : State} {addr : Nat} (h : addr < s.cfg.otpeBase ∨ s.cfg.otpeBase + 0x200 ≤ addr)
    (size : Nat) (v : Word) :
    busRead addr size s = .fault (.outsideWindow addr) ∧ busWrite addr size v s = .fault (.outsideWindow addr) ∧
      busBurst addr s = .fault (.outsideWindow addr) := by
  simp only [busRead, busWrite, busBurst, windowOffset_eq_none h, and_self]

/-! ## The claims -/

/-- Settles O29: the buffer's laws for the word and its bytes. -/
theorem bufferWordsArePackedBigEndian : Obligations.BufferWordsArePackedBigEndian := by
  intro m j v hm
  obtain ⟨h0, h1, h2, h3⟩ := read_setWord_toNat hm j v
  refine ⟨?_, h0, h1, h2, h3, fun i hi => ?_, fun k hk => ?_⟩
  · rw [Memory.word_setWord hm, if_pos rfl]
  · rw [Memory.read_setWord hm, if_neg hi]
  · rw [Memory.word_setWord hm, if_neg hk]

/-- Settles O38: an admitted access is one to the register at its offset, and no register answers any other. -/
theorem otherAccessesAreBusErrors : Obligations.OtherAccessesAreBusErrors := by
  intro s off size beats v vs rest hhost hoff
  refine ⟨fun hp => ⟨?_, fun hnot => ?_⟩, fun hp => ?_⟩
  · rintro ⟨rfl, hmapped⟩
    obtain ⟨r, hr, rfl⟩ := exists_reg_of_mappedOffset hoff hmapped
    obtain hp | hp := hp
    · exact ⟨_, step_read hhost hr hp⟩
    · exact ⟨_, step_write hhost hr hp⟩
  · obtain ⟨hread, hwrite⟩ := bus_of_not_admitted (s := tick rest s) hoff hnot v
    obtain hp | hp := hp
    · exact (step_eq_busRead hhost hp).trans hread
    · exact (step_eq_busWrite hhost hp).trans hwrite
  · exact (step_eq_busBurst hhost hp).trans (busBurst_of_lt (s := tick rest s) hoff)

/-- Settles O39: whatever the access, its address has no offset in the window. -/
theorem accessOutsideTheWindowFaults : Obligations.AccessOutsideTheWindowFaults := by
  intro s addr size beats v vs rest hhost hout hp
  obtain ⟨hread, hwrite, hburst⟩ := bus_of_outside (s := tick rest s) hout size v
  obtain hp | hp | hp := hp
  · exact (step_eq_busRead hhost hp).trans hread
  · exact (step_eq_busWrite hhost hp).trans hwrite
  · exact (step_eq_busBurst hhost hp).trans hburst

end Sys2Proof.Machine
end

section
/-! SUPPORT. The command word and the host's pseudo-instructions (O1 to O4, O47, O48; 30_encoding.md): `decode` in
numbers and under R67's mask, the bytes that `readtok` reads, and what one poll of `wait` changes. -/

namespace Sys2Proof

/-! ## From a command to its word and back -/

/-- A DIGITS operand of a well-formed command fits its field (R64). -/
theorem toNat_digits {d : Nat} (h : digitsEncodable d = true) : (BitVec.ofNat 4 d).toNat = d :=
  (BitVec.toNat_ofNat d 4).trans (Nat.mod_eq_of_lt (of_decide_eq_true h))

/-! ## Decoding in numbers (R67) -/

/-- RES0 and RES1 in numbers (R62). -/
theorem reserved_clear_iff (w : Word) :
    res0Field w = 0 ∧ res1Field w = 0 ↔ w.toNat / 64 % 4 = 0 ∧ w.toNat / 4096 = 0 := by
  rw [← BitVec.toNat_inj, ← BitVec.toNat_inj, res0Field_toNat, res1Field_toNat]
  rfl

/-- The algorithm of a tag in numbers (R63). -/
theorem algOfTag_eq (t : BitVec 2) : algOfTag t =
    if t.toNat = 0 then some .sha1 else if t.toNat = 1 then some .sha256
      else if t.toNat = 2 then some .sha512 else none := by
  revert t; decide

theorem decode_of_reserved_clear {w : Word} (h : res0Field w = 0 ∧ res1Field w = 0) :
    decode w = decodeOp (opField w) (algField w) (digitsField w) := by
  rw [decode, if_neg (by simp [h])]

/-- A command is an OP from 0 to 7 (R65). -/
theorem opOf_lt (i : Instr) : (opOf i).toNat < 8 := by
  cases i <;> simp [opOf]

theorem exists_decodeOp_of_lt {op : BitVec 4} (h : op.toNat < 8) (a : BitVec 2) (d : BitVec 4) :
    ∃ i, decodeOp op a d = .ok i := by
  unfold decodeOp
  interval_cases op.toNat <;> exact ⟨_, rfl⟩

/-- Which words select a command: those with clear reserved fields and an OP below 8. -/
theorem exists_decode_iff (w : Word) :
    (∃ i, decode w = .ok i) ↔ res0Field w = 0 ∧ res1Field w = 0 ∧ (opField w).toNat < 8 := by
  constructor
  · rintro ⟨i, hi⟩
    obtain ⟨h0, h1, hop, -, -⟩ := decode_ok_inv hi
    exact ⟨h0, h1, hop ▸ opOf_lt i⟩
  · rintro ⟨h0, h1, hop⟩
    rw [decode_of_reserved_clear ⟨h0, h1⟩]
    exact exists_decodeOp_of_lt hop _ _

/-! ## The mask of R67 -/

/-- The mask keeps OP, RES0 and RES1. -/
theorem fields_and_mask (w : Word) :
    opField (w &&& 0xFFFFF0CF#32) = opField w ∧ res0Field (w &&& 0xFFFFF0CF#32) = res0Field w ∧
      res1Field (w &&& 0xFFFFF0CF#32) = res1Field w := by
  have hop : BitVec.extractLsb' 0 4 0xFFFFF0CF#32 = BitVec.allOnes 4 := by decide
  have h0 : BitVec.extractLsb' 6 2 0xFFFFF0CF#32 = BitVec.allOnes 2 := by decide
  have h1 : BitVec.extractLsb' 12 20 0xFFFFF0CF#32 = BitVec.allOnes 20 := by decide
  simp only [opField, res0Field, res1Field, BitVec.extractLsb'_and, hop, h0, h1, BitVec.and_allOnes, and_self]

/-- The fields of a word that holds nothing but an OP. -/
theorem fields_ofNat {op : Nat} (h : op < 8) :
    (opField (BitVec.ofNat 32 op)).toNat = op ∧ res0Field (BitVec.ofNat 32 op) = 0 ∧
      res1Field (BitVec.ofNat 32 op) = 0 := by
  interval_cases op <;> decide

/-- A word is an OP below 8 under the mask exactly if its reserved fields are clear and its OP is that one. -/
theorem and_mask_eq_iff {w : Word} {op : Nat} (h : op < 8) :
    w &&& 0xFFFFF0CF#32 = BitVec.ofNat 32 op ↔
      res0Field w = 0 ∧ res1Field w = 0 ∧ (opField w).toNat = op := by
  constructor
  · intro hw
    obtain ⟨hop, h0, h1⟩ := fields_and_mask w
    rw [← hop, ← h0, ← h1, hw]
    obtain ⟨hop', h0', h1'⟩ := fields_ofNat h
    exact ⟨h0', h1', hop'⟩
  · rintro ⟨h0, h1, rfl⟩
    conv_lhs => rw [← wordOfFields_fields w, h0, h1, Laws.wordOfFields_and_mask]
    exact (BitVec.ofNat_toNat 32 _).symm

/-! ## The claims about the word -/

/-- Settles O1: the word's fields are the operands, and OP selects the command's own row of the case table. -/
theorem decodeOfEncodeIsTheCommand : Obligations.DecodeOfEncodeIsTheCommand := by
  intro i ignoredAlg ignoredDigits hwf
  cases i with
  | nop | enc | tstep => exact decode_wordOfFields ..
  | mac a =>
    refine (decode_wordOfFields ..).trans ?_
    simp only [decodeOp, opOf, algOfTag_tagOfAlg]
    rfl
  | fmt d =>
    refine (decode_wordOfFields ..).trans ?_
    simp only [decodeOp, opOf, toNat_digits hwf]
    rfl
  | trunc a d | hotp a d | totp a d =>
    refine (decode_wordOfFields ..).trans ?_
    simp only [decodeOp, opOf, algOfTag_tagOfAlg, toNat_digits hwf]
    rfl

/-- Settles O2: the command's word has the word's own fields, and a word is made of its fields. -/
theorem encodeOfDecodeIsTheWord : Obligations.EncodeOfDecodeIsTheWord := by
  intro w i hi
  obtain ⟨h0, h1, -, hwf, henc⟩ := decode_ok_inv hi
  refine ⟨hwf, ?_⟩
  rw [henc, ← h0, ← h1, wordOfFields_fields]

/-- Settles O3: with the reserved fields clear, `decode` is the case table on the OP number; the words that select a
command are those with clear reserved fields and an OP below 8, which is what the mask keeps. -/
theorem decodeFollowsTheOpcodeMap : Obligations.DecodeFollowsTheOpcodeMap := by
  intro w n alg d
  have halg : algOfTag (algField w) = alg := by rw [algOfTag_eq, algField_toNat]
  refine ⟨fun hn => ?_, fun h0 h1 => ?_, ?_⟩
  · cases hd : decode w with
    | error e => exact ⟨e, rfl⟩
    | ok i =>
      obtain ⟨h0, h1, hop⟩ := (exists_decode_iff w).mp ⟨i, hd⟩
      obtain ⟨h0', h1'⟩ := (reserved_clear_iff w).mp ⟨h0, h1⟩
      rw [opField_toNat] at hop
      omega
  · rw [decode_of_reserved_clear ((reserved_clear_iff w).mpr ⟨h0, h1⟩), decodeOp, opField_toNat, digitsField_toNat,
      halg]
    and_intros
    all_goals
      intro hop
      rw [hop]
      rfl
  · rw [exists_decode_iff]
    constructor
    · rintro ⟨h0, h1, hop⟩
      exact ⟨_, hop, (and_mask_eq_iff hop).mpr ⟨h0, h1, rfl⟩⟩
    · rintro ⟨op, hlt, hw⟩
      obtain ⟨h0, h1, rfl⟩ := (and_mask_eq_iff hlt).mp hw
      exact ⟨h0, h1, hlt⟩

/-- Settles O4: each word evaluates to the command the spec names. -/
theorem wordsOfTheSpecDecode : Obligations.WordsOfTheSpecDecode :=
  ⟨rfl, rfl, rfl, rfl, rfl, rfl, rfl, rfl, rfl, rfl, rfl, rfl⟩

end Sys2Proof

namespace Sys2Proof.Machine

/-! ## The bytes of `readtok` (R72, R40) -/

/-- The bytes of a word of a buffer, as a host reads it. -/
theorem unpackBe_word (m : Memory) (j : Nat) :
    unpackBe (m.word j) = [m.read (4 * j), m.read (4 * j + 1), m.read (4 * j + 2), m.read (4 * j + 3)] :=
  unpackBe_packBe m.read j

/-- The three words of OUT are the 12 bytes of OUTC. -/
theorem unpackBe_outc (m : Memory) :
    unpackBe (m.word 0) ++ unpackBe (m.word 1) ++ unpackBe (m.word 2) = m.firstBytes 12 := by
  simp only [unpackBe_word]
  rfl

theorem take_firstBytes (m : Memory) {n k : Nat} (h : n ≤ k) : (m.firstBytes k).take n = m.firstBytes n := by
  rw [Memory.firstBytes, ← List.map_take, List.take_range, Nat.min_eq_left h, Memory.firstBytes]

/-! ## One poll of `wait` (R72) -/

theorem pollStatus_reads (rest : List BusEvent) (s : State) :
    (pollStatus rest s).reads = statusWord s :: s.reads := rfl

theorem pollStatus_pending (rest : List BusEvent) (s : State) :
    (pollStatus rest s).pending = if s.done then rest else .poll :: rest := rfl

theorem pollStatus_key (rest : List BusEvent) (s : State) : (pollStatus rest s).key = s.key := rfl

theorem readReg_pollStatus (rest : List BusEvent) (s : State) (r : Reg) :
    readReg (pollStatus rest s) r = readReg s r := by
  rw [pollStatus, readReg_deliver, readReg_tick]

/-- Bit 1 of STATUS is DONE (R27). -/
theorem getLsbD_status_done (s : State) : (readReg s .status).getLsbD 1 = s.done :=
  (getLsbD_statusWord s 1).trans rfl

/-! ## The claims about the pseudo-instructions -/

/-- Settles O47: the three words read are the 12 bytes of OUTC, of which the token is the first OUTLEN. -/
theorem tokenIsReadFromTheOutRegisters : Obligations.TokenIsReadFromTheOutRegisters := by
  intro s hlen
  have houtlen : (readReg s .outlen).toNat = s.outlen.toNat :=
    BitVec.toNat_setWidth_of_le (by decide)
  rw [tokenOf, houtlen]
  exact (congrArg (List.take _) (unpackBe_outc s.outc)).trans (take_firstBytes s.outc hlen)

/-- Settles O48: whether the poll comes again depends on DONE, the bit that the host has just read. -/
theorem waitPollsUntilDone : Obligations.WaitPollsUntilDone := by
  intro s rest hhost hp
  refine ⟨_, step_poll hhost hp, pollStatus_reads rest s, fun hdone => ?_, fun hdone => ?_,
    fun i => by rw [pollStatus_key], readReg_pollStatus rest s⟩
  · rw [getLsbD_status_done] at hdone
    rw [pollStatus_pending, if_pos hdone]
  · rw [getLsbD_status_done] at hdone
    rw [pollStatus_pending, if_neg (by simp [hdone]), hp]

end Sys2Proof.Machine
end

section
/-! SUPPORT. Command execution (O5 to O13, O21, O23, O25; 40_command_execution.md): the end of a completion step, a
CMD write in each phase, what the results of a command depend on, and when the key is wiped. -/

namespace Sys2Proof.Machine

/-! ## The engine's step -/

/-- On the engine's turn either the decoded command completes, or the word is illegal. -/
theorem step_of_engineMoves_cases {s : State} (h : EngineMoves s) :
    (∃ i, decode s.snap.cmd = .ok i ∧ step s = .next (completeStep i (performOf i) s)) ∨
      step s = .next (complete .illegalCommand { cmd := true } s) := by
  cases hd : decode s.snap.cmd with
  | ok i => exact .inl ⟨i, rfl, step_of_decode_ok h hd⟩
  | error e => exact .inr (step_of_decode_error h hd)

/-- Completing a command writes STATUS alone (R78, R79). -/
theorem complete_frame (e : ErrCode) (F : ErrFlags) (s : State) :
    OutsideKept s (complete e F s) ∧ KeyKept s (complete e F s) ∧
      ∀ r, r ≠ .status → readReg (complete e F s) r = readReg s r :=
  ⟨⟨rfl, rfl, rfl, rfl⟩, fun _ => rfl, fun _ hr => readReg_complete e F s hr⟩

/-- The word in flight after `withFetchWord` is the command's own. -/
theorem withFetchWord_cmd (s : State) (w : Word) : (s.withFetchWord 32 w.toNat).snap.cmd = w := by
  show BitVec.ofNat 32 (w.toNat % 2 ^ 32) = w
  rw [Nat.mod_eq_of_lt w.isLt, BitVec.ofNat_toNat, BitVec.setWidth_eq]

/-! ## No step is refused -/

theorem busRead_ne_refused (addr size : Nat) (s : State) (r : Refusal) : busRead addr size s ≠ .refused r := by
  unfold busRead
  split
  · nofun
  · split <;> nofun

theorem busWrite_ne_refused (addr size : Nat) (v : Word) (s : State) (r : Refusal) :
    busWrite addr size v s ≠ .refused r := by
  unfold busWrite
  split
  · nofun
  · split <;> nofun

theorem busBurst_ne_refused (addr : Nat) (s : State) (r : Refusal) : busBurst addr s ≠ .refused r := by
  unfold busBurst
  split <;> nofun

theorem hostStep_ne_refused (s : State) (r : Refusal) : hostStep s ≠ .refused r := by
  unfold hostStep
  split
  · nofun
  · exact busRead_ne_refused _ _ _ r
  · exact busWrite_ne_refused _ _ _ _ r
  · exact busBurst_ne_refused _ _ r
  · exact busBurst_ne_refused _ _ r
  · nofun
  · nofun

/-! ## A CMD write (R73, R75) -/

theorem issue_of_idle {s : State} (h : s.phase = .idle) (w : Word) : issue w s = startDelay (accept w s) := by
  rw [issue, h]

theorem issue_of_busy {s : State} (h : s.phase = .busy) (w : Word) : issue w s = dropCommand s := by
  rw [issue, h]

@[simp] theorem readReg_startDelay (s : State) (r : Reg) : readReg (startDelay s) r = readReg s r := by
  cases r <;> rfl

/-- A dropped command changes what STATUS reads as, and no other register. -/
theorem readReg_dropCommand (s : State) {r : Reg} (h : r ≠ .status) : readReg (dropCommand s) r = readReg s r :=
  readReg_congr r h rfl rfl rfl rfl rfl rfl rfl rfl rfl rfl rfl rfl rfl rfl rfl rfl rfl rfl rfl rfl rfl

/-- STATUS after a dropped command: OVR is set, and every other bit is as before. -/
theorem statusWord_dropCommand (s : State) : statusWord (dropCommand s) = statusWord s ||| 0x4 := by
  refine BitVec.eq_of_getLsbD_eq fun i hi => ?_
  rw [BitVec.getLsbD_or, getLsbD_statusWord, getLsbD_statusWord]
  interval_cases i <;> simp

/-! ## Checks -/

/-- A command fails where an operand it uses is out of range (R76). -/
theorem errCodeOf_checks_ne_none {i : Instr} {k : Nat} {S : Snapshot}
    (h : (∃ d, digitsUsed i = some d ∧ ¬ (1 ≤ d ∧ d ≤ 10)) ∨ (usesPeriod i = true ∧ S.period = 0) ∨
      algUsed i = some none ∨ (usesKey i = true ∧ k < S.keylen.toNat)) :
    errCodeOf (checks i k S) ≠ .none := by
  intro hpass
  obtain ⟨hdigits, hperiod, halg, hkey⟩ := checks_pass.mp hpass
  obtain ⟨d, hd, hbad⟩ | ⟨hused, hzero⟩ | hnone | ⟨hused, hlong⟩ := h
  · exact hbad (hdigits d hd)
  · exact hperiod hused hzero
  · exact halg hnone
  · exact absurd hlong (Nat.not_lt.mpr (hkey hused))

/-- The EF_* bits of STATUS after a command are its failed checks (R76, R105). -/
theorem exec_flags {i : Instr} {s : State} {F : ErrFlags} (h : checks i s.cfg.keyMaxBytes s.snap = F) :
    ∃ t, exec i s = .next t ∧
      (readReg t .status).getLsbD 8 = F.digits ∧ (readReg t .status).getLsbD 9 = F.period ∧
      (readReg t .status).getLsbD 10 = F.counter ∧ (readReg t .status).getLsbD 11 = F.alg ∧
      (readReg t .status).getLsbD 12 = F.keylen ∧ (readReg t .status).getLsbD 13 = F.cmd := by
  refine ⟨_, exec_eq i s, ?_⟩
  have hef : (completeStep i (performOf i) s).ef = F := by rw [completeStep_eq, complete_ef, h]
  exact hef ▸ flags_statusWord (completeStep i (performOf i) s)

theorem isNone_eq_decide_tag (a : AlgTag) : a.isNone = decide (tagOfAlg a = 3) := by
  rcases a with _ | a
  · rfl
  · cases a <;> rfl

theorem decide_eq_zero_toNat (p : Word) : decide (p = 0) = decide (p.toNat = 0) :=
  decide_eq_decide.mpr BitVec.toNat_inj.symm

/-! ## What the results depend on (R81) -/

/-- The registers of R44's table take from the state nothing but its snapshot, MACCNT apart. -/
theorem readReg_performOf_congr {i : Instr} (halg : algUsed i ≠ some none) {s₁ s₂ : State}
    (hsnap : s₁.snap = s₂.snap) {r : Reg} (hw : writesReg i r = true) (hstatus : r ≠ .status)
    (hmaccnt : r ≠ .maccnt) : readReg (performOf i s₁) r = readReg (performOf i s₂) r := by
  cases i with
  | nop =>
    cases r with
    | status => contradiction
    | _ => cases hw
  | enc =>
    simp only [performOf, performEnc, hsnap]
    cases r with
    | msgHi | msgLo => rfl
    | status => contradiction
    | _ => cases hw
  | mac a =>
    cases a with
    | none => exact absurd rfl halg
    | some a =>
      simp only [performOf, performMac, hsnap]
      cases r with
      | msgHi | msgLo | digest j | keylen => rfl
      | status | maccnt => contradiction
      | _ => cases hw
  | trunc a d =>
    cases a with
    | none => exact absurd rfl halg
    | some a =>
      simp only [performOf, performTrunc, hsnap]
      cases r with
      | offset | binary | code | outlen | out j => rfl
      | status => contradiction
      | _ => cases hw
  | fmt d =>
    simp only [performOf, performFmt, hsnap]
    cases r with
    | code | outlen | out j => rfl
    | status => contradiction
    | _ => cases hw
  | hotp a d =>
    cases a with
    | none => exact absurd rfl halg
    | some a =>
      simp only [performOf, performHotp, hsnap]
      cases r with
      | msgHi | msgLo | digest j | offset | binary | code | outlen | out j | keylen => rfl
      | status | maccnt => contradiction
      | _ => cases hw
  | tstep =>
    simp only [performOf, performTstep, hsnap]
    cases r with
    | tstepHi | tstepLo => rfl
    | status => contradiction
    | _ => cases hw
  | totp a d =>
    cases a with
    | none => exact absurd rfl halg
    | some a =>
      simp only [performOf, performTotp, hsnap]
      cases r with
      | tstepHi | tstepLo | msgHi | msgLo | digest j | offset | binary | code | outlen | out j | keylen => rfl
      | status | maccnt => contradiction
      | _ => cases hw

/-! ## The key after a completion (R80) -/

/-- A successful MAC, HOTP or TOTP wipes the key. -/
theorem completeStep_wipes {i : Instr} {s : State} (hpass : errCodeOf (checks i s.cfg.keyMaxBytes s.snap) = .none)
    (hkey : usesKey i = true) : KeyWiped (completeStep i (performOf i) s) := by
  obtain ⟨-, -, halg, -⟩ := checks_pass.mp hpass
  obtain ⟨hcleared, hlen⟩ := performOf_wipes hkey halg s
  rw [completeStep_pass _ hpass]
  refine ⟨fun j => ?_, hlen⟩
  rw [complete_key, hcleared]
  rfl

/-- A rejected command, and one that uses no key, keeps it. -/
theorem completeStep_keeps_key {i : Instr} {s : State}
    (h : errCodeOf (checks i s.cfg.keyMaxBytes s.snap) ≠ .none ∨ usesKey i = false) :
    (completeStep i (performOf i) s).key = s.key ∧ (completeStep i (performOf i) s).keylen = s.keylen := by
  rw [completeStep_eq, complete_key, complete_keylen]
  split
  · next hpass =>
    have hkey : usesKey i = false := h.resolve_left (not_not_intro hpass)
    exact ⟨performOf_key hkey s, performOf_keylen hkey s⟩
  · exact ⟨rfl, rfl⟩

theorem errcode_illegal_ne_zero (s : State) :
    (readReg (complete .illegalCommand { cmd := true } s) .status).extractLsb' 4 4 ≠ 0 := by
  rw [readReg, errcode_statusWord, complete_errcode]
  decide

/-! ## The claims -/

/-- Settles O5: the engine's step is `exec` of the decoded command. -/
theorem stepRunsTheDecodedCommand : Obligations.StepRunsTheDecodedCommand :=
  fun s i h hd => (step_of_decode_ok h hd).trans (exec_eq i s).symm

/-- Settles O6: the word in flight decodes to the command (O1), and it is the engine's turn. -/
theorem fetchedWordRunsNext : Obligations.FetchedWordRunsNext := by
  intro s i hwf u
  have hd : decode u.snap.cmd = .ok i :=
    (congrArg decode (withFetchWord_cmd s (encode i))).trans (decodeOfEncodeIsTheCommand i 0 0 hwf)
  exact ⟨stepRunsTheDecodedCommand u i ⟨rfl, .inl rfl⟩ hd, rfl, rfl, rfl, rfl, rfl, rfl, rfl⟩

/-- Settles O7: every completion ends in `complete`, and no operation of the host is refused. -/
theorem everyCompletionStepCompletes : Obligations.EveryCompletionStepCompletes := by
  have hengine : ∀ s : State, EngineMoves s →
      ∃ t, step s = .next t ∧ t.phase = .idle ∧ t.done = true ∧ t.ovr = s.ovr := by
    intro s h
    obtain ⟨i, -, hstep⟩ | hstep := step_of_engineMoves_cases h
    · exact ⟨_, hstep, completeStep_phase i _ s, completeStep_done i _ s, completeStep_ovr i s⟩
    · exact ⟨_, hstep, rfl, rfl, rfl⟩
  refine ⟨hengine, fun s r hr => ?_⟩
  by_cases h : EngineMoves s
  · obtain ⟨t, hstep, -⟩ := hengine s h
    rw [hstep] at hr
    cases hr
  · rw [step_of_not_engineMoves h] at hr
    exact hostStep_ne_refused s r hr

/-- Settles O8: the word does not decode (O3), and completing with its error writes STATUS alone. -/
theorem illegalWordCompletesWithItsError : Obligations.IllegalWordCompletesWithItsError := by
  intro s h n hillegal
  obtain ⟨hundecoded, -, -⟩ := decodeFollowsTheOpcodeMap s.snap.cmd
  obtain ⟨e, hd⟩ := hundecoded (or_rotate.mp hillegal)
  obtain ⟨houtside, hkey, hregs⟩ := complete_frame .illegalCommand { cmd := true } s
  exact ⟨_, step_of_decode_error h hd, ⟨rfl, statusWord_complete_illegal s, rfl, houtside⟩, hkey, hregs⟩

/-- Settles O9: the host's write is an acceptance. -/
theorem commandWriteWhileIdleIsAccepted : Obligations.CommandWriteWhileIdleIsAccepted := by
  intro s w rest hidle hp
  have hstep : step s = .next (startDelay (accept w (tick rest s))) := by
    rw [step_write (r := .cmd) (.inl hidle) trivial hp, writeReg, issue_of_idle (s := tick rest s) hidle]
  refine ⟨_, hstep, rfl, rfl, rfl, statusWord_accept w (tick rest s), fun _ => rfl, rfl, fun r hcmd hstatus => ?_⟩
  rw [readReg_startDelay, readReg_accept w _ hcmd hstatus, readReg_tick]

/-- Settles O10: the host's write is dropped. -/
theorem commandWriteWhileBusyIsDropped : Obligations.CommandWriteWhileBusyIsDropped := by
  intro s w rest hbusy hdelay hp
  have hstep : step s = .next (dropCommand (tick rest s)) := by
    rw [step_write (r := .cmd) (.inr hdelay) trivial hp, writeReg, issue_of_busy (s := tick rest s) hbusy]
  refine ⟨_, hstep, hbusy, rfl, rfl, statusWord_dropCommand (tick rest s), fun _ => rfl, rfl, fun r hr => ?_⟩
  rw [readReg_dropCommand _ hr, readReg_tick]

/-- Settles O11: no register write reaches the command in flight. -/
theorem hostWritesDoNotReachTheSnapshot : Obligations.HostWritesDoNotReachTheSnapshot := by
  intro s r v rest hbusy hdelay hmapped hp
  obtain ⟨hsnap, hphase, hcmd, -⟩ := writeReg_busy (s := tick rest s) hbusy r v
  exact ⟨_, step_write (.inr hdelay) hmapped hp, hsnap, hphase, hcmd⟩

/-- Settles O12: the checks read the snapshot and the parameters, and the results the snapshot. -/
theorem resultsDependOnTheSnapshotAlone : Obligations.ResultsDependOnTheSnapshotAlone := by
  intro i s₁ s₂ hsnap hcfg
  refine ⟨_, _, exec_eq i s₁, exec_eq i s₂, ?_, ?_, fun hnone r hw hstatus hmaccnt => ?_⟩
  · simp only [completeStep_eq, complete_errcode, hsnap, hcfg]
  · simp only [completeStep_eq, complete_ef, hsnap, hcfg]
  · rw [completeStep_eq, complete_errcode] at hnone
    obtain ⟨-, -, halg, -⟩ := checks_pass.mp hnone
    have hnone₂ : errCodeOf (checks i s₂.cfg.keyMaxBytes s₂.snap) = .none := by rw [← hsnap, ← hcfg, hnone]
    rw [completeStep_pass _ hnone, completeStep_pass _ hnone₂, readReg_complete _ _ _ hstatus,
      readReg_complete _ _ _ hstatus, readReg_performOf_congr halg hsnap hw hstatus hmaccnt]

/-- Settles O13: NOP passes its checks, and STATUS is all there is in its column of R44's table (O24). -/
theorem nopCompletes : Obligations.NopCompletes := by
  intro s
  obtain ⟨t, hexec, hfinished, hkey, hregs⟩ := successfulCommandKeepsWhatItsColumnLeaves .nop s rfl
  refine ⟨t, hexec, hfinished, hkey rfl, fun r hr => hregs r ?_⟩
  cases r with
  | status => contradiction
  | _ => rfl

/-- Settles O21: for each command its `checks`, field by field. -/
theorem errorFlagsOfEachCommand : Obligations.ErrorFlagsOfEachCommand := by
  intro s k badDigits badPeriod badKeylen badAlg ends
  have hends : ∀ i digits period alg keylen,
      checks i k s.snap = ⟨digits, period, false, alg, keylen, false⟩ → ends i digits period alg keylen :=
    fun _ _ _ _ _ h => exec_flags h
  have halg : ∀ a : AlgTag, badAlg a = a.isNone := fun a => (isNone_eq_decide_tag a).symm
  have hperiod : badPeriod = decide (s.snap.period = 0) := (decide_eq_zero_toNat _).symm
  simp only [halg, hperiod]
  exact ⟨hends _ _ _ _ _ rfl, hends _ _ _ _ _ rfl, fun _ => hends _ _ _ _ _ rfl, fun _ _ => hends _ _ _ _ _ rfl,
    fun _ => hends _ _ _ _ _ rfl, fun _ _ => hends _ _ _ _ _ rfl, hends _ _ _ _ _ rfl,
    fun _ _ => hends _ _ _ _ _ rfl⟩

/-- Settles O23: a failed check, and an illegal word, go straight to `complete`. -/
theorem rejectedCommandWritesStatusAlone : Obligations.RejectedCommandWritesStatusAlone := by
  refine ⟨fun i s hbad => ?_, fun s h => ?_⟩
  · have hfail := errCodeOf_checks_ne_none (k := s.cfg.keyMaxBytes) hbad
    exact ⟨_, (exec_eq i s).trans (congrArg _ (completeStep_fail _ hfail)), rfl, rfl, rfl, hfail,
      complete_frame _ _ s⟩
  · obtain ⟨i, -, hstep⟩ | hstep := step_of_engineMoves_cases h
    · refine ⟨_, hstep, fun hcode => ?_⟩
      rw [completeStep_fail _ (errcode_completeStep_eq_zero.not.mp hcode)]
      exact complete_frame _ _ s
    · exact ⟨_, hstep, fun _ => complete_frame _ _ s⟩

/-- Settles O25: OP 2, 5 and 7 are the commands that use the key; an illegal word leaves an error code. -/
theorem keyIsWipedExactlyAfterItsUse : Obligations.KeyIsWipedExactlyAfterItsUse := by
  intro s h
  obtain ⟨i, hd, hstep⟩ | hstep := step_of_engineMoves_cases h
  · have hop := usesKey_iff (i := i)
    rw [opOf_toNat_of_decode hd] at hop
    refine ⟨_, hstep, ?_⟩
    simp only [ne_eq, errcode_completeStep_eq_zero, ← hop]
    refine ⟨completeStep_wipes, fun hor => ?_⟩
    obtain ⟨hkey, hlen⟩ := completeStep_keeps_key (hor.imp_right Bool.eq_false_of_not_eq_true)
    exact ⟨fun j => by rw [hkey], hlen⟩
  · exact ⟨_, hstep, fun h0 => absurd h0 (errcode_illegal_ne_zero s), fun _ => ⟨fun _ => rfl, rfl⟩⟩

end Sys2Proof.Machine
end

section
/-! SUPPORT. The Counter Encoder (O14, O28; 41_counter_encoder.md R84, R86): `enc64` as a big-endian byte sequence, and
what ENC writes. -/

namespace Sys2Proof.Machine

/-! ## Big-endian byte sequences -/

theorem byteAt_bytesBe {k i : Nat} (n : Nat) (h : i < k) :
    byteAt (bytesBe k n) i = BitVec.ofNat 8 (n >>> (8 * (k - 1 - i))) := by
  simp [byteAt, bytesBe, h]

theorem bytesVal_concat (s : List Byte) (b : Byte) : bytesVal (s ++ [b]) = bytesVal s * 256 + b.toNat :=
  List.foldl_concat ..

/-- The last byte is the least significant one; the bytes before it are those of the quotient. -/
theorem bytesBe_succ (k n : Nat) : bytesBe (k + 1) n = bytesBe k (n / 256) ++ [BitVec.ofNat 8 n] := by
  have hinit : ∀ i ∈ List.range k,
      BitVec.ofNat 8 (n >>> (8 * (k - i))) = BitVec.ofNat 8 ((n / 256) >>> (8 * (k - 1 - i))) := by
    intro i hi
    have hik : i < k := List.mem_range.mp hi
    rw [show 8 * (k - i) = 8 + 8 * (k - 1 - i) by omega, Nat.shiftRight_add, Nat.shiftRight_eq_div_pow n 8]
  rw [bytesBe, List.range_succ, List.map_append, bytesBe, Nat.add_sub_cancel, List.map_congr_left hinit]
  simp

/-- `k` bytes denote the number modulo 256^k: its low `8 * k` bits are all there. -/
theorem bytesVal_bytesBe (k n : Nat) : bytesVal (bytesBe k n) = n % 256 ^ k := by
  induction k generalizing n with
  | zero => exact (Nat.mod_one n).symm
  | succ k ih =>
    rw [bytesBe_succ, bytesVal_concat, ih, BitVec.toNat_ofNat, pow_succ' 256 k, Nat.mod_mul]
    omega

/-- The byte fields that `enc64` cuts from the counter are the eight bytes of its number (R84). -/
theorem enc64_eq_bytesBe (c : BitVec 64) : enc64 c = bytesBe 8 c.toNat := rfl

/-! ## The claims -/

/-- Settles O28: the three facts about `bytesBe 8`; a 64-bit number is below 256^8. -/
theorem encodedCounterBytes : Obligations.EncodedCounterBytes := by
  intro c
  rw [enc64_eq_bytesBe]
  refine ⟨length_bytesBe 8 _, fun i hi => ?_, ?_⟩
  · rw [byteAt_bytesBe _ hi, BitVec.toNat_ofNat]
    exact (Nat.and_two_pow_sub_one_eq_mod _ 8).symm
  · rw [bytesVal_bytesBe]
    exact Nat.mod_eq_of_lt c.isLt

/-- Settles O14: ENC passes its checks; beyond STATUS its column of R44's table holds MSG_HI and MSG_LO alone (O24),
which take the two halves of `enc64` of the counter. -/
theorem encWritesTheCounter : Obligations.EncWritesTheCounter := by
  intro s
  obtain ⟨t, hexec, hfinished, hkey, hregs⟩ := successfulCommandKeepsWhatItsColumnLeaves .enc s rfl
  obtain rfl : complete .none {} (performEnc s) = t := Host.Outcome.next.inj hexec
  refine ⟨_, hexec, hfinished, hkey rfl, packBe_enc64_zero s.snap.ctr, packBe_enc64_one s.snap.ctr,
    fun r hstatus hmsgHi hmsgLo => hregs r ?_⟩
  cases r with
  | status => contradiction
  | msgHi => contradiction
  | msgLo => contradiction
  | _ => rfl

end Sys2Proof.Machine
end

section
/-! SUPPORT. The functions of the HOTP engine (O30 to O33; 42_hotp_engine.md R88 to R92): the HMAC key, dynamic
truncation, and the token as a decimal number. -/

namespace Sys2Proof.Machine

/-! ## The HMAC key (R88) -/

theorem hmac_congr {a : Alg} {K K' : List Byte} (h : hmacKey a K = hmacKey a K') (m : List Byte) :
    hmac a K m = hmac a K' m := by
  rw [hmac, hmac, h]

/-- The hash of a key fits the block, so it is filled with zeros and not hashed again. -/
theorem hmacKey_hash {a : Alg} {K : List Byte} (h : blockLen a < K.length) :
    hmacKey a (hash a K) = hmacKey a K := by
  obtain ⟨-, -, hfits⟩ := digestLen_bounds a
  rw [hmacKey, if_neg (by rw [length_hash]; omega), hmacKey, if_pos h, length_hash]

theorem hmacKey_append_zeros {a : Alg} {K : List Byte} {n : Nat} (h : K.length + n ≤ blockLen a) :
    hmacKey a (K ++ zeros n) = hmacKey a K := by
  have hsum : n + (blockLen a - (K.length + n)) = blockLen a - K.length := by omega
  rw [hmacKey, List.length_append, length_zeros, if_neg (by omega), hmacKey, if_neg (by omega), List.append_assoc,
    zeros, zeros, List.replicate_append_replicate, hsum, zeros]

/-! ## The token as a decimal number (R91) -/

theorem digitChar_toNat (v d i : Nat) : (digitChar v d i).toNat = 0x30 + v / 10 ^ (d - 1 - i) % 10 := by
  rw [digitChar, BitVec.toNat_ofNat]
  omega

theorem fmtChars_eq_map_digitChar (v d : Nat) : fmtChars v d = (List.range d).map (digitChar v d) :=
  List.map_congr_left fun i hi => by rw [fmtCode_digit v d i (List.mem_range.mp hi), digitChar]

theorem exists_digitChar_of_mem {v d : Nat} {c : Byte} (h : c ∈ fmtChars v d) : ∃ i, digitChar v d i = c := by
  rw [fmtChars_eq_map_digitChar] at h
  obtain ⟨i, -, hi⟩ := List.mem_map.mp h
  exact ⟨i, hi⟩

/-- The last character is the units digit; the characters before it are those of the quotient. -/
theorem fmtChars_succ (v d : Nat) : fmtChars v (d + 1) = fmtChars (v / 10) d ++ [BitVec.ofNat 8 (0x30 + v % 10)] := by
  have hinit : ∀ i ∈ List.range d, digitChar v (d + 1) i = digitChar (v / 10) d i := by
    intro i hi
    have hexp : d + 1 - 1 - i = d - 1 - i + 1 := by
      have := List.mem_range.mp hi
      omega
    rw [digitChar, digitChar, hexp, pow_succ', Nat.div_div_eq_div_mul]
  have hlast : digitChar v (d + 1) d = BitVec.ofNat 8 (0x30 + v % 10) := by simp [digitChar]
  rw [fmtChars_eq_map_digitChar, fmtChars_eq_map_digitChar, List.range_succ, List.map_append,
    List.map_congr_left hinit, List.map_singleton, hlast]

/-- The number that ASCII digits denote, most significant first (R16). -/
def tokenVal (s : List Byte) : Nat := s.foldl (fun n c => 10 * n + (c.toNat - 0x30)) 0

theorem tokenVal_concat (s : List Byte) (c : Byte) : tokenVal (s ++ [c]) = 10 * tokenVal s + (c.toNat - 0x30) :=
  List.foldl_concat ..

theorem tokenVal_fmtChars (v d : Nat) : tokenVal (fmtChars v d) = fmtCode v d := by
  induction d generalizing v with
  | zero => exact (Nat.mod_one v).symm
  | succ d ih =>
    rw [fmtChars_succ, tokenVal_concat, ih, fmtCode, fmtCode, pow_succ', Nat.mod_mul, BitVec.toNat_ofNat]
    omega

theorem tokenVal_eq_zero {s : List Byte} (h : ∀ c ∈ s, c = 0x30#8) : tokenVal s = 0 := by
  rw [List.eq_replicate_of_mem h]
  generalize s.length = n
  induction n with
  | zero => rfl
  | succ n ih => rw [List.replicate_succ', tokenVal_concat, ih]; rfl

/-- A token is all '0' exactly if its code is 0: its characters denote the code. -/
theorem fmtChars_all_zero_iff (v d : Nat) : (∀ c ∈ fmtChars v d, c = 0x30#8) ↔ fmtCode v d = 0 := by
  refine ⟨fun h => ?_, fun h c hc => ?_⟩
  · rw [← tokenVal_fmtChars, tokenVal_eq_zero h]
  · rw [fmtChars, h] at hc
    obtain ⟨i, -, rfl⟩ := List.mem_map.mp hc
    simp

/-! ## The claims -/

/-- Settles O30: HMAC takes from its key no more than `hmacKey`. -/
theorem hmacKeyIsHashedOrZeroFilled : Obligations.HmacKeyIsHashedOrZeroFilled :=
  fun a K m => ⟨fun h => hmac_congr (hmacKey_hash h).symm m, fun _ h => hmac_congr (hmacKey_append_zeros h) m,
    length_hmac a K m⟩

/-- Settles O31: truncation is `offsetOf` and `binaryOf`, which are remainders modulo 16 and 2^31. -/
theorem truncationStaysInsideTheDigest : Obligations.TruncationStaysInsideTheDigest := by
  intro H hlen
  have hoffset := offsetOf_lt H.length H
  have hbinary := binaryOf_lt H.length H
  rw [trunc_eq]
  dsimp only
  exact ⟨by omega, by omega, by omega, by omega, rfl, rfl⟩

/-- Settles O32: a remainder modulo 10^d, and the token's length and characters. -/
theorem formatterProperties : Obligations.FormatterProperties := by
  intro v d hv _ _
  refine ⟨fmtCode_lt v d, fmtCode_le v d, length_fmtChars v d, fmtChars_all_zero_iff v d, ?_, ?_⟩
  · rintro rfl
    exact Nat.mod_eq_of_lt (by omega)
  · rintro rfl
    exact fmtChars_succ v 0

/-- Settles O33: each character is a `digitChar`, and `fmtChars` appends one digit after the other. -/
theorem tokenDenotesTheCode : Obligations.TokenDenotesTheCode := by
  refine fun v d => ⟨fun c hc => ?_, tokenVal_fmtChars v d⟩
  obtain ⟨i, rfl⟩ := exists_digitChar_of_mem hc
  rw [digitChar_toNat]
  omega

end Sys2Proof.Machine
end

section
/-! SUPPORT. The HOTP engine's commands (O15 to O18, O35; 42_hotp_engine.md R94 to R98): what their result registers
read as. -/

namespace Sys2Proof.Machine

/-! ## Result registers -/

/-- Where `trunc` of a digest and the token of its value stand, as a host reads them (R36 to R40). -/
theorem readReg_trunc_of_eq {t : State} {H : List Byte} {d : Nat} (hd : d ≤ 10)
    (h : t.offset = BitVec.ofNat 4 (trunc H).1 ∧ t.binary = BitVec.ofNat 31 (trunc H).2 ∧
      t.code = BitVec.ofNat 31 (fmt (trunc H).2 d).1 ∧ t.outlen = BitVec.ofNat 4 d ∧
      t.outc = Memory.ofBytes (outBytes (fmt (trunc H).2 d).2 d)) :
    readReg t .offset = BitVec.ofNat 32 (offsetOf H.length H) ∧
    readReg t .binary = BitVec.ofNat 32 (binaryOf H.length H) ∧ HoldsToken t (binaryOf H.length H) d := by
  rw [trunc_eq] at h
  obtain ⟨hoffset, hbinary, hcode, houtlen, houtc⟩ := h
  exact ⟨readReg_offset_of_eq (offsetOf_lt _ _) hoffset, readReg_binary_of_eq (binaryOf_lt _ _) hbinary,
    holdsToken_of_eq (binaryOf_lt _ _) hd hcode houtlen houtc⟩

/-- The results of `hotp(alg, d, K, c)` as a host reads them after the completion (R98, R103). -/
theorem readReg_complete_putHotp (a : Alg) {d : Nat} (hd : d ≤ 10) (K : List Byte) (c : BitVec 64) (s : State) :
    let H := hmac a K (enc64 c)
    let t := complete .none {} (putHotp (hotp a d K c) d s)
    readReg t .msgHi = c.extractLsb' 32 32 ∧ readReg t .msgLo = c.extractLsb' 0 32 ∧
    (∀ j : Fin 16, readReg t (.digest j) = packBe (byteAt (H ++ zeros (64 - digestLen a))) j.val) ∧
    readReg t .offset = BitVec.ofNat 32 (offsetOf (digestLen a) H) ∧
    readReg t .binary = BitVec.ofNat 32 (binaryOf (digestLen a) H) ∧
    HoldsToken t (binaryOf (digestLen a) H) d ∧ readReg t .maccnt = readReg s .maccnt + 1 := by
  intro H t
  have hmsgHi : t.msgHi = c.extractLsb' 32 32 := by simp [t, hotp, packBe_enc64_zero]
  have hmsgLo : t.msgLo = c.extractLsb' 0 32 := by simp [t, hotp, packBe_enc64_one]
  have hmaccnt : t.maccnt = s.maccnt + 1 := by simp [t]
  have hdigest := readReg_digest_of_eq (t := t) (H := H) (by simp [t, H, hotp])
  have htrunc := readReg_trunc_of_eq (t := t) (H := H) hd (by simp [t, H, hotp])
  rw [length_hmac] at hdigest htrunc
  obtain ⟨hoffset, hbinary, htoken⟩ := htrunc
  exact ⟨hmsgHi, hmsgLo, hdigest, hoffset, hbinary, htoken, hmaccnt⟩

/-- The first bytes of a buffer give back what it was made of, whatever fills it up. -/
theorem firstBytes_ofBytes_append (H T : List Byte) : (Memory.ofBytes (H ++ T)).firstBytes H.length = H := by
  refine eq_of_byteAt_eq (length_firstBytes _ _) fun i hi => ?_
  rw [length_firstBytes] at hi
  rw [byteAt_firstBytes, if_pos hi, Memory.read_ofBytes, byteAt_append, if_pos hi]

/-! ## A command that passes its checks -/

/-- A command that passes its checks completes without error, keeps the registers that R44's table leaves (O24), and
wipes the key if it uses it (R80) and keeps it otherwise. -/
theorem exec_of_pass {i : Instr} {s : State} (hpass : errCodeOf (checks i s.cfg.keyMaxBytes s.snap) = .none) :
    let t := complete .none {} (performOf i s)
    exec i s = .next t ∧ Finished s t 0x2 ∧
    (usesKey i = false → KeyKept s t) ∧ (usesKey i = true → KeyWiped t) ∧
    ∀ r, writesReg i r = false → readReg t r = readReg s r := by
  obtain ⟨t, hexec, hfinished, hkept, hregs⟩ := successfulCommandKeepsWhatItsColumnLeaves i s hpass
  have hcomplete := completeStep_pass (performOf i) hpass
  obtain rfl : complete .none {} (performOf i s) = t := by
    rw [exec_eq, hcomplete] at hexec
    exact Host.Outcome.next.inj hexec
  exact ⟨hexec, hfinished, hkept, fun hkey => hcomplete ▸ completeStep_wipes hpass hkey, hregs⟩

/-! ## The claims about one command -/

/-- Settles O15: MAC passes its checks, and what it performs puts the HMAC of the encoded counter into DIG. -/
theorem macWritesTheHmac : Obligations.MacWritesTheHmac := by
  intro a s hkeylen H
  obtain ⟨hexec, hfinished, -, hwiped, hregs⟩ := exec_of_pass (pass_mac (a := a) hkeylen)
  have hdigest := readReg_digest_of_eq (H := hmac a (secretOf s.snap) (enc64 (counterOf s.snap)))
    (t := complete .none {} (performOf (.mac (some a)) s)) (by simp [performOf, performMac])
  rw [length_hmac] at hdigest
  exact ⟨_, hexec, hfinished, hwiped rfl, packBe_enc64_zero s.snap.ctr, packBe_enc64_one s.snap.ctr, hdigest, rfl,
    hregs⟩

/-- Settles O16: TRUNC passes its checks, and its digest has L(alg) bytes. -/
theorem truncWritesTheToken : Obligations.TruncWritesTheToken := by
  intro a d s h1 h2 D
  obtain ⟨hexec, hfinished, hkept, -, hregs⟩ := exec_of_pass (s := s) (pass_trunc (a := a) h1 h2)
  obtain ⟨hoffset, hbinary, htoken⟩ := readReg_trunc_of_eq (H := digestOf a s.snap)
    (t := complete .none {} (performOf (.trunc (some a) d) s)) h2 (by simp [performOf, performTrunc])
  rw [digestOf, length_firstBytes] at hoffset hbinary htoken
  exact ⟨_, hexec, hfinished, hkept rfl, hoffset, hbinary, htoken, hregs⟩

/-- Settles O17: FMT passes its checks, and VALUE has 31 bits. -/
theorem fmtWritesTheToken : Obligations.FmtWritesTheToken := by
  intro d s h1 h2
  obtain ⟨hexec, hfinished, hkept, -, hregs⟩ := exec_of_pass (s := s) (pass_fmt h1 h2)
  have htoken : HoldsToken (complete .none {} (performOf (.fmt d) s)) (valueOf s.snap) d := by
    refine holdsToken_of_eq s.snap.value.isLt h2 ?_ ?_ ?_ <;> simp [performOf, performFmt]
  exact ⟨_, hexec, hfinished, hkept rfl, htoken, hregs⟩

/-- Settles O18: HOTP passes its checks; what it performs puts the HMAC into DIG, and the truncation of the HMAC into
the registers that TRUNC writes. -/
theorem hotpWritesTheToken : Obligations.HotpWritesTheToken := by
  intro a d s h1 h2 hkeylen H
  obtain ⟨hexec, hfinished, -, hwiped, hregs⟩ := exec_of_pass (pass_hotp (a := a) h1 h2 hkeylen)
  obtain ⟨hmsgHi, hmsgLo, hdigest, hoffset, hbinary, htoken, hmaccnt⟩ :=
    readReg_complete_putHotp a h2 (secretOf s.snap) (counterOf s.snap) s
  exact ⟨_, hexec, hfinished, hwiped rfl, hmsgHi, hmsgLo, hdigest, hoffset, hbinary, htoken, hmaccnt, hregs⟩

/-! ## HOTP as MAC and TRUNC (R94) -/

/-- The digest that a command accepted after MAC finds is the HMAC. -/
theorem digestOf_snapshot_performMac (a : Alg) (w : Word) (s : State) :
    digestOf a (snapshot w (complete .none {} (performMac (some a) s))) =
      hmac a (secretOf s.snap) (enc64 (counterOf s.snap)) := by
  simp only [digestOf, snapshot, performMac, complete_dig, wipe_dig, countMac_dig, putDigest_dig]
  rw [← length_hmac a (secretOf s.snap) (enc64 (counterOf s.snap)), firstBytes_ofBytes_append]

/-- What TRUNC performs after MAC writes what HOTP performs, CMD and STATUS apart. -/
theorem readReg_performTrunc_after_mac (a : Alg) (d : Nat) (w : Word) (s : State) {r : Reg} (hcmd : r ≠ .cmd)
    (hstatus : r ≠ .status) :
    readReg (performTrunc (some a) d (accept w (complete .none {} (performMac (some a) s)))) r =
      readReg (performHotp (some a) d s) r := by
  simp only [performTrunc, accept_snap, digestOf_snapshot_performMac]
  cases r with
  | cmd => contradiction
  | status => contradiction
  | _ => simp [readReg, performMac, performHotp, hotp]

/-- Settles O35: all three commands pass their checks; the key stays wiped through TRUNC, and STATUS is that of a
success in both. -/
theorem hotpIsMacThenTrunc : Obligations.HotpIsMacThenTrunc := by
  intro a d s h1 h2 hkeylen
  obtain ⟨hexecHotp, hfinishedHotp, -, hwipedHotp, -⟩ := exec_of_pass (pass_hotp (a := a) h1 h2 hkeylen)
  obtain ⟨hexecMac, hfinishedMac, -, hwipedMac, -⟩ := exec_of_pass (pass_mac (a := a) hkeylen)
  obtain ⟨hkey, hlen⟩ := hwipedMac rfl
  obtain ⟨hexecTrunc, hfinishedTrunc, hkeptTrunc, -, -⟩ := exec_of_pass
    (s := accept (encode (.trunc (some a) d)) (complete .none {} (performOf (.mac (some a)) s)))
    (pass_trunc (a := a) h1 h2)
  refine ⟨_, _, _, hexecHotp, hexecMac, hexecTrunc, hwipedHotp rfl,
    ⟨fun i => (hkeptTrunc rfl i).trans (hkey i), (performOf_keylen rfl _).trans hlen⟩, fun r hcmd => ?_⟩
  by_cases hstatus : r = .status
  · rw [hstatus, hfinishedTrunc.status, hfinishedHotp.status, accept_ovr, hfinishedMac.ovr]
  · rw [readReg_complete _ _ _ hstatus, readReg_complete _ _ _ hstatus]
    exact readReg_performTrunc_after_mac a d _ s hcmd hstatus

end Sys2Proof.Machine
end

section
/-! SUPPORT. The TOTP engine (O19, O20, O34, O36; 43_totp_engine.md R99 to R103): the time step as a number, what TSTEP
and TOTP write, and TOTP as HOTP of the time step. -/

namespace Sys2Proof.Machine

/-! ## The time step (R99, R100) -/

theorem tstep_eq_div_mul (t p : Nat) : tstep t p = t / (1000 * p) := Nat.div_div_eq_div_mul t 1000 p

theorem tstep_mono {t t' : Nat} (h : t ≤ t') (p : Nat) : tstep t p ≤ tstep t' p :=
  Nat.div_le_div_right (Nat.div_le_div_right h)

/-- The two halves of a snapshot's time step, as TSTEP and MSG hold them, denote it. -/
theorem stepOf_halves_toNat (S : Snapshot) :
    ((stepOf S).extractLsb' 32 32).toNat * 2 ^ 32 + ((stepOf S).extractLsb' 0 32).toNat =
      S.ts.toNat / 1000 / S.period.toNat :=
  (halves_toNat (stepOf S)).trans (stepOf_toNat S)

/-! ## TOTP by way of HOTP (R101) -/

/-- The state in which the command in flight has the counter `c`. -/
def withCtr (c : BitVec 64) (s : State) : State := { s with snap := { s.snap with ctr := c } }

/-- No register shows the snapshot. -/
theorem readReg_withCtr (c : BitVec 64) (s : State) (r : Reg) : readReg (withCtr c s) r = readReg s r := by
  cases r <;> rfl

theorem readReg_putTstep (n : BitVec 64) (s : State) {r : Reg} (hhi : r ≠ .tstepHi) (hlo : r ≠ .tstepLo) :
    readReg (putTstep n s) r = readReg s r := by
  cases r with
  | tstepHi | tstepLo => contradiction
  | _ => rfl

/-- Beyond the results, `putHotp` carries over what a register read before. -/
theorem readReg_putHotp_congr {s₁ s₂ : State} {r : Reg} (h : readReg s₁ r = readReg s₂ r) (R : HotpResult) (d : Nat) :
    readReg (putHotp R d s₁) r = readReg (putHotp R d s₂) r := by
  cases r with
  | id | key j | msgHi | msgLo | digest j | offset | binary | code | outlen | out j | keylen => rfl
  | status => simpa [readReg, statusWord] using h
  | _ => simpa [readReg] using h

/-- TOTP writes the time step, and then what HOTP writes for that counter. -/
theorem performTotp_some (a : Alg) (d : Nat) (s : State) :
    performTotp (some a) d s =
      putHotp (hotp a d (secretOf s.snap) (stepOf s.snap)) d (putTstep (stepOf s.snap) s) := rfl

theorem performHotp_withCtr (a : Alg) (d : Nat) (c : BitVec 64) (s : State) :
    performHotp (some a) d (withCtr c s) = putHotp (hotp a d (secretOf s.snap) c) d (withCtr c s) := rfl

/-- What TOTP performs writes what HOTP performs for the time step, TSTEP apart. -/
theorem readReg_performTotp_eq_performHotp (a : Alg) (d : Nat) (s : State) {r : Reg} (hhi : r ≠ .tstepHi)
    (hlo : r ≠ .tstepLo) :
    readReg (performTotp (some a) d s) r = readReg (performHotp (some a) d (withCtr (stepOf s.snap) s)) r := by
  rw [performTotp_some, performHotp_withCtr]
  refine readReg_putHotp_congr ?_ _ d
  rw [readReg_putTstep _ s hhi hlo, readReg_withCtr]

/-! ## The claims -/

/-- Settles O34: both divisions round down, so they compose and do not decrease, and a 64-bit timestamp divided by 1000
is below 2^55. -/
theorem timeStepProperties : Obligations.TimeStepProperties := by
  refine fun t p _ => ⟨tstep_eq_div_mul t p, fun ht => ?_, fun t' h => tstep_mono h p⟩
  have hle := tstep_le (p := p) ht
  exact ⟨hle, by omega⟩

/-- Settles O19: TSTEP passes its checks, and what it performs puts the two halves of the time step into TSTEP. -/
theorem tstepWritesTheTimeStep : Obligations.TstepWritesTheTimeStep := by
  intro s hperiod
  obtain ⟨hexec, hfinished, hkept, -, hregs⟩ := exec_of_pass (pass_tstep (k := s.cfg.keyMaxBytes) hperiod)
  exact ⟨_, hexec, hfinished, hkept rfl, stepOf_halves_toNat s.snap, hregs⟩

/-- Settles O20: TOTP passes its checks; it puts the time step into TSTEP, and then writes the results of HOTP with the
time step as the counter (O18), of which MSG is that counter. -/
theorem totpWritesTheToken : Obligations.TotpWritesTheToken := by
  intro a d s h1 h2 hperiod hkeylen n H
  obtain ⟨hexec, hfinished, -, hwiped, hregs⟩ := exec_of_pass (pass_totp (a := a) h1 h2 hperiod hkeylen)
  obtain ⟨hmsgHi, hmsgLo, hdigest, hoffset, hbinary, htoken, hmaccnt⟩ :=
    readReg_complete_putHotp a h2 (secretOf s.snap) (stepOf s.snap) (putTstep (stepOf s.snap) s)
  rw [← performTotp_some] at hmsgHi hmsgLo hdigest hoffset hbinary htoken hmaccnt
  refine ⟨_, hexec, hfinished, hwiped rfl, stepOf_halves_toNat s.snap, ?_, hdigest, hoffset, hbinary, htoken, hmaccnt,
    hregs⟩
  rw [performOf, hmsgHi, hmsgLo, stepOf_halves_toNat]

/-- Settles O36: both commands pass their checks and write the same results; STATUS is that of a success in both. -/
theorem totpIsHotpOfTheTimeStep : Obligations.TotpIsHotpOfTheTimeStep := by
  intro a d s h1 h2 hperiod hkeylen n
  obtain ⟨hexecHotp, hfinishedHotp, -, hwipedHotp, -⟩ :=
    exec_of_pass (s := withCtr (stepOf s.snap) s) (pass_hotp (a := a) h1 h2 hkeylen)
  obtain ⟨hexecTotp, hfinishedTotp, -, hwipedTotp, -⟩ := exec_of_pass (pass_totp (a := a) h1 h2 hperiod hkeylen)
  refine ⟨_, _, hexecHotp, hexecTotp, hwipedHotp rfl, hwipedTotp rfl, fun r hhi hlo => ?_⟩
  by_cases hstatus : r = .status
  · rw [hstatus, hfinishedTotp.status, hfinishedHotp.status]
    rfl
  · rw [readReg_complete _ _ _ hstatus, readReg_complete _ _ _ hstatus]
    exact readReg_performTotp_eq_performHotp a d s hhi hlo

end Sys2Proof.Machine
end

section
/-! SUPPORT. Errors and the interrupt (O22, O49; 60_exceptions.md R104, R108, R112): ERRCODE and the EF_* bits as a
host reads them, and what raises and clears IRQ. -/

namespace Sys2Proof.Machine

/-! ## The engine's step (R109) -/

/-- Whatever the word in flight, the engine's step completes it with some set of failed checks, and with the code that
R108 gives for them. -/
theorem step_completes {s : State} (h : EngineMoves s) :
    ∃ (F : ErrFlags) (u : State), step s = .next (complete (errCodeOf F) F u) ∧ u.ie = s.ie := by
  obtain ⟨i, -, hstep⟩ | hstep := step_of_engineMoves_cases h
  · rw [completeStep_eq] at hstep
    refine ⟨_, _, hstep, ?_⟩
    split
    · exact performOf_ie i s
    · rfl
  · exact ⟨illegalChecks, s, hstep, rfl⟩

/-! ## Priority (R108) -/

/-- The number of the first failed check in R108's order. -/
theorem toNat_num_errCodeOf (F : ErrFlags) : (errCodeOf F).num.toNat =
    if F.cmd then 6 else if F.digits then 1 else if F.period then 2 else if F.counter then 3
    else if F.alg then 4 else if F.keylen then 5 else 0 := by
  unfold errCodeOf
  split_ifs <;> rfl

/-! ## The interrupt (R112) -/

/-- Bit 0 of CTRL is IE (R26). -/
theorem getLsbD_ctrl_ie (s : State) : (readReg s .ctrl).getLsbD 0 = s.ie := by
  simp [readReg]

/-- No interrupt is pending while DONE is clear. -/
theorem irq_of_not_done {s : State} (h : s.done = false) : irq s = false := by
  rw [irq, h, Bool.and_false]

/-- The interrupt is masked while IE is clear. -/
theorem irq_of_not_ie {s : State} (h : s.ie = false) : irq s = false := by
  rw [irq, h, Bool.false_and]

/-- A STATUS write of 1 to DONE clears it (R27). -/
theorem writeStatus_done_of_bit {v : Word} (h : v.getLsbD 1 = true) (s : State) : (writeStatus v s).done = false := by
  rw [writeStatus_done, h, Bool.not_true, Bool.and_false]

/-! ## The claims -/

/-- Settles O22: every completion leaves the code that R108 gives for the flags it leaves, and STATUS shows both. -/
theorem errcodeIsTheFirstFailedCheck : Obligations.ErrcodeIsTheFirstFailedCheck := by
  intro s h
  obtain ⟨F, u, hstep, -⟩ := step_completes h
  refine ⟨_, hstep, ?_⟩
  obtain ⟨hdigits, hperiod, hcounter, halg, hkeylen, hcmd⟩ := flags_statusWord (complete (errCodeOf F) F u)
  simp only [readReg, errcode_statusWord, hdigits, hperiod, hcounter, halg, hkeylen, hcmd]
  exact toNat_num_errCodeOf F

/-- Settles O49: a completion sets DONE and keeps IE; an acceptance, a reset and a STATUS write of 1 to DONE clear DONE,
and a CTRL write of 0 clears IE. -/
theorem interruptFollowsDone : Obligations.InterruptFollowsDone := by
  refine ⟨fun s => ?_, fun s h => ?_, fun s rest w hhost hcases => ?_⟩
  · rw [getLsbD_ctrl_ie, getLsbD_status_done, irq]
  · obtain ⟨F, u, hstep, hie⟩ := step_completes h
    exact ⟨_, hstep, (Bool.and_true u.ie).trans hie⟩
  · obtain ⟨hidle, hp⟩ | hp | ⟨hp, hbit⟩ | ⟨hp, hbit⟩ := hcases
    · refine ⟨_, step_write (r := .cmd) hhost trivial hp, irq_of_not_done ?_⟩
      rw [writeReg, issue_of_idle (s := tick rest s) hidle, startDelay_done, accept_done]
    · exact ⟨_, step_reset hhost hp, irq_of_not_done rfl⟩
    · exact ⟨_, step_write (r := .status) hhost trivial hp, irq_of_not_done (writeStatus_done_of_bit hbit _)⟩
    · exact ⟨_, step_write (r := .ctrl) hhost trivial hp, irq_of_not_ie hbit⟩

end Sys2Proof.Machine
end

section
/-! SUPPORT. Reset and hazards (O26, O51, O52, O55; 70_reset_and_hazards.md R119, R122, R126, R127): the state after
reset, the secret after a wipe, and what host events do to the result registers. -/

namespace Sys2Proof.Machine

/-! ## Reset (R119) -/

/-- Resetting a block with legal parameters establishes the invariant, even where it did not hold before. -/
theorem inv_resetBlock {s : State} (hcfg : s.cfg.wf) : Inv (resetBlock s) where
  cfg := hcfg
  key := bufferWf_nil _
  dig := bufferWf_nil _
  outc := bufferWf_nil _
  snapKey := nofun
  snapDig := nofun
  snapCmd := nofun
  busyDone := nofun
  busyFlags := nofun
  errcode := rfl
  counter := rfl
  cmdAlone := nofun
  outlen := by simp
  code := by simp
  chars := nofun
  rest := fun _ _ => rfl
  tstep := by simp

/-- CAP for a legal KEY_MAX_BYTES (R25). -/
theorem capWord_eq {k : Nat} (hk : k < 512) : capWord k = BitVec.ofNat 32 (0x7A000 + k) := by
  refine BitVec.eq_of_toNat_eq ?_
  rw [capWord_toNat hk, BitVec.toNat_ofNat, Nat.mod_eq_of_lt (by omega)]

@[simp] theorem Memory.word_nil (j : Nat) : Memory.word [] j = 0 := by
  simp [Memory.word, packBe]

/-- STATUS is 0 after reset: no parameter and no event of the host shows in it. -/
theorem statusWord_resetBlock (s : State) : statusWord (resetBlock s) = 0 := by
  have hreset : statusWord (resetBlock s) = statusWord State.reset := rfl
  rw [hreset]
  decide

/-- After reset every register reads its reset value (R22). -/
theorem readReg_resetBlock {s : State} (hcfg : s.cfg.wf) (r : Reg) :
    readReg (resetBlock s) r = resetWord s.cfg.keyMaxBytes r := by
  cases r with
  | cap =>
    obtain ⟨-, -, hmax⟩ := hcfg
    exact capWord_eq (Nat.lt_of_le_of_lt hmax (by decide))
  | status => exact statusWord_resetBlock s
  | out j | digest j => exact Memory.word_nil j.val
  | _ => rfl

/-! ## The empty secret (R126) -/

/-- With KEYLEN 0 the secret of the next accepted command is empty. -/
theorem secretOf_accept_of_keylen_zero {s : State} (h : s.keylen = 0) (w : Word) :
    secretOf (accept w s).snap = [] := by
  rw [accept_snap, secretOf, snapshot, h]
  rfl

/-- The key length check passes for a snapshot of length 0. -/
theorem checks_keylen_of_zero {S : Snapshot} (h : S.keylen = 0) (i : Instr) (k : Nat) :
    (checks i k S).keylen = false := by
  simp [checks, h]

/-! ## The results between completions (R122, R127) -/

/-- No host event but reset writes a result register. -/
theorem hostStep_readOnlyReg {s t : State} (h : hostStep s = .next t) (hp : ∀ rest, s.pending ≠ .reset :: rest)
    {r : Reg} (hr : readOnlyReg r = true) : readReg t r = readReg s r := by
  obtain ⟨-, rfl⟩ | ⟨r', rest, -, -, rfl⟩ | ⟨r', v, rest, -, -, rfl⟩ | ⟨rest, -, rfl⟩ | ⟨rest, hreset, -⟩ :=
    hostStep_cases h
  · rfl
  · rw [readReg_deliver, readReg_tick]
  · rw [readReg_writeReg_readOnly _ _ _ _ hr, readReg_tick]
  · rw [pollStatus, readReg_deliver, readReg_tick]
  · exact absurd hreset (hp rest)

/-! ## The claims -/

/-- Settles O55: the state after reset is a block with the reference parameters that was reset. -/
theorem invariantHoldsAtReset : Obligations.InvariantHoldsAtReset :=
  inv_resetBlock (s := State.reset) (by decide)

/-- Settles O26: the command wipes the key (R80), so the next snapshot has length 0, which is legal. -/
theorem nextCommandWithoutReloadHasTheEmptySecret : Obligations.NextCommandWithoutReloadHasTheEmptySecret := by
  intro i s hkey hpass
  have hwiped : KeyWiped (completeStep i (performOf i) s) := completeStep_wipes hpass hkey
  have hlen := hwiped.2
  refine ⟨_, exec_eq i s, hwiped, fun w => ⟨secretOf_accept_of_keylen_zero hlen w, fun j => ?_⟩⟩
  obtain ⟨u, hexec, -, -, -, -, hflag, -⟩ :=
    exec_flags (i := j) (s := accept w (completeStep i (performOf i) s)) rfl
  exact ⟨u, hexec, hflag.trans (checks_keylen_of_zero hlen j _)⟩

/-- Settles O51: such a step is a host event other than reset. -/
theorem resultsChangeOnlyAtCompletion : Obligations.ResultsChangeOnlyAtCompletion := by
  intro s t hne hp hstep r hr
  rw [step_of_not_engineMoves hne] at hstep
  exact hostStep_readOnlyReg hstep hp hr

/-- Settles O52: the reset event is the host's step, and it gives every field its reset value. -/
theorem resetClearsEverything : Obligations.ResetClearsEverything := by
  intro s rest hcfg hhost hp
  exact ⟨_, step_reset hhost hp, rfl, readReg_resetBlock (s := tick rest s) hcfg, ⟨fun _ => rfl, rfl⟩, rfl, rfl, rfl⟩

end Sys2Proof.Machine
end
